-- ==== Sys2Proof/Word.lean ====
section
/-!
DEFINITION. The types of values: signals, vectors, words, and groups of eight (00_scope.md R7, R8, R6).
-/

namespace Sys2Proof

/-- A signal: a value in exactly {0, 1} (R7); `false` is 0 and `true` is 1. -/
abbrev Bit := Bool

/-- A vector of `n` signals (R8).
Lane 0 is the most significant bit, so the vector's unsigned value `u(v)` (R9) is `BitVec.toNat`. -/
abbrev Vec (n : Nat) := BitVec n

/-- `Word` means `Vec 16` (R8). -/
abbrev Word := Vec 16

/-- Eight like things numbered 0 to 7: the inputs of an 8-way multiplexer (R72), the outputs of an 8-way
demultiplexer (R74), the children of a RAM tier (R84). -/
structure Eight (α : Type) where
  v0 : α
  v1 : α
  v2 : α
  v3 : α
  v4 : α
  v5 : α
  v6 : α
  v7 : α
  deriving DecidableEq, Repr

end Sys2Proof
end

