-- ==== Sys2Proof/Config.lean ====
section
/-!
DEFINITION. The block's parameters (00_scope.md R6).
All are fixed but `dff_init`, which is an argument of constructing a standalone DFF (42_storage.md R76, decision D6).
The spec leaves no result of an operation open, so there is no free value.
-/

namespace Sys2Proof.Config

/-- `W`, the data word width (R6). -/
def wordWidth : Nat := 16

/-- `K`, the RAM branching factor (R6). -/
def branching : Nat := 8

/-- RAM8 address width (R6). -/
def ram8AddressWidth : Nat := 3

/-- RAM64 address width (R6). -/
def ram64AddressWidth : Nat := 6

/-- Width of the operation field of a stimulus record (30_encoding.md R47). -/
def opFieldWidth : Nat := 5

/-- `dff_init` of a DFF that a script line constructs with no `init=` ("default 0", 30_encoding.md R58). -/
def dffInitDefault : Bit := false

end Sys2Proof.Config
end

