-- ==== Sys2Proof/Syntax.lean ====
section
/-!
DEFINITION. The operations of the block: one constructor per row of spec/opcode_table.json (30_encoding.md R48).
-/

namespace Sys2Proof

/-- One operation call with its typed inputs, in the order of 30_encoding.md R48.
A signal is a `Bit` and every vector has its width, so a contract violation cannot be written (60_exceptions.md R102).
A sequential call names no component to act on: that is bound outside the record (30_encoding.md R53). -/
inductive Instr where
  /-- 40_gates.md R62. -/
  | nand (x y : Bit)
  /-- 40_gates.md R63. -/
  | not (x : Bit)
  /-- 40_gates.md R64. -/
  | and (x y : Bit)
  /-- 40_gates.md R65. -/
  | or (x y : Bit)
  /-- 40_gates.md R66. -/
  | nor (x y : Bit)
  /-- 40_gates.md R67. -/
  | xor (x y : Bit)
  /-- 40_gates.md R68. -/
  | and16 (a b : Word)
  /-- 41_mux_dmux.md R70. -/
  | mux (x y sel : Bit)
  /-- 41_mux_dmux.md R71. -/
  | mux16 (a b : Word) (sel : Bit)
  /-- 41_mux_dmux.md R72; `v` holds v0 to v7. -/
  | mux8way16 (v : Eight Word) (sel3 : Vec 3)
  /-- 41_mux_dmux.md R73. -/
  | dmux (input sel : Bit)
  /-- 41_mux_dmux.md R74. -/
  | dmux8way (input : Bit) (sel3 : Vec 3)
  /-- 42_storage.md R77. -/
  | dff (input : Bit)
  /-- 42_storage.md R79. -/
  | bit (input load : Bit)
  /-- 42_storage.md R81. -/
  | register (input : Word) (load : Bit)
  /-- 43_ram.md R85. -/
  | ram8 (input : Word) (load : Bit) (address : Vec 3)
  /-- 43_ram.md R87. -/
  | ram64 (input : Word) (load : Bit) (address : Vec 6)
  /-- 44_pc.md R95. -/
  | pc (input : Word) (load reset inc : Bit)
  /-- 44_pc.md R93. -/
  | inc16 (v : Word)
  deriving DecidableEq, Repr

end Sys2Proof
end

