-- ==== Sys2Proof/Machine/Opcodes.lean ====
section
/-!
DEFINITION. The operation fields and record lengths of 30_encoding.md R48.
-/

namespace Sys2Proof

/-- The name of an operation, its operands left out (the rows of R48). -/
inductive Op where
  | nand | not | and | or | nor | xor | and16
  | mux | mux16 | mux8way16 | dmux | dmux8way
  | dff | bit | register | ram8 | ram64 | pc | inc16
  deriving DecidableEq, Repr

/-- The operation that a 5-bit operation field names, its first bit first (R48, column "op field").
Fields 0x13 to 0x1F are reserved and name none (R55). -/
def Op.ofField : Bit → Bit → Bit → Bit → Bit → Option Op
  | false, false, false, false, false => some .nand
  | false, false, false, false, true => some .not
  | false, false, false, true, false => some .and
  | false, false, false, true, true => some .or
  | false, false, true, false, false => some .nor
  | false, false, true, false, true => some .xor
  | false, false, true, true, false => some .and16
  | false, false, true, true, true => some .mux
  | false, true, false, false, false => some .mux16
  | false, true, false, false, true => some .mux8way16
  | false, true, false, true, false => some .dmux
  | false, true, false, true, true => some .dmux8way
  | false, true, true, false, false => some .dff
  | false, true, true, false, true => some .bit
  | false, true, true, true, false => some .register
  | false, true, true, true, true => some .ram8
  | true, false, false, false, false => some .ram64
  | true, false, false, false, true => some .pc
  | true, false, false, true, false => some .inc16
  | true, false, false, true, true => none
  | true, false, true, _, _ => none
  | true, true, _, _, _ => none

/-- The operation number of R48 (the `match` of spec/opcode_table.json). -/
def Op.number : Op → Nat
  | .nand => 0x00
  | .not => 0x01
  | .and => 0x02
  | .or => 0x03
  | .nor => 0x04
  | .xor => 0x05
  | .and16 => 0x06
  | .mux => 0x07
  | .mux16 => 0x08
  | .mux8way16 => 0x09
  | .dmux => 0x0A
  | .dmux8way => 0x0B
  | .dff => 0x0C
  | .bit => 0x0D
  | .register => 0x0E
  | .ram8 => 0x0F
  | .ram64 => 0x10
  | .pc => 0x11
  | .inc16 => 0x12

/-- The record length of R48. -/
def Op.recordLength : Op → Nat
  | .nand => 7
  | .not => 6
  | .and => 7
  | .or => 7
  | .nor => 7
  | .xor => 7
  | .and16 => 37
  | .mux => 8
  | .mux16 => 38
  | .mux8way16 => 136
  | .dmux => 7
  | .dmux8way => 9
  | .dff => 6
  | .bit => 7
  | .register => 22
  | .ram8 => 25
  | .ram64 => 28
  | .pc => 24
  | .inc16 => 21

/-- The operation that a record begins with, where its first five bits name one (R54). -/
def opOfRecord : List Bit → Option Op
  | a :: b :: c :: d :: e :: _ => Op.ofField a b c d e
  | _ => none

/-- The operation of an instruction. -/
def Instr.op : Instr → Op
  | .nand _ _ => .nand
  | .not _ => .not
  | .and _ _ => .and
  | .or _ _ => .or
  | .nor _ _ => .nor
  | .xor _ _ => .xor
  | .and16 _ _ => .and16
  | .mux _ _ _ => .mux
  | .mux16 _ _ _ => .mux16
  | .mux8way16 _ _ => .mux8way16
  | .dmux _ _ => .dmux
  | .dmux8way _ _ => .dmux8way
  | .dff _ => .dff
  | .bit _ _ => .bit
  | .register _ _ => .register
  | .ram8 _ _ _ => .ram8
  | .ram64 _ _ _ => .ram64
  | .pc _ _ _ _ => .pc
  | .inc16 _ => .inc16

end Sys2Proof
end

