-- ==== Sys2Proof/Machine/Stimulus.lean ====
section
/-!
DEFINITION. What the driver can send: the host interface of 60_exceptions.md R110 and the script lines of
30_encoding.md R58 and R59.
A component's name is a natural number, since the spec gives `<name>` no spelling (log 11).
-/

namespace Sys2Proof.Machine

/-- The kinds of sequential component (R2, R58). -/
inductive Kind where
  | dff | bit | register | ram8 | ram64 | pc
  deriving DecidableEq, Repr

/-- A construct call: a kind, and `dff_init` for a standalone DFF (R110, 42_storage.md R76). -/
inductive Construction where
  | dff (init : Bit)
  | bit
  | register
  | ram8
  | ram64
  | pc
  deriving DecidableEq, Repr

/-- The field names of a script line (R58). -/
inductive Field where
  | x | y | a | b | v0 | v1 | v2 | v3 | v4 | v5 | v6 | v7
  | sel | sel3 | input | load | reset | inc | address | v
  deriving DecidableEq, Repr

/-- The value forms of a script line (R58), read as numerals.
`returned` is what the latest call returned: the `o` and the `INC16(o)` of PCSTEP (R59), and the driver's forwarding of
one component's `out` into another's `input` (R109, R122; DESIGN CHOICE, safe: log 12). -/
inductive Value where
  | dec (d : Int)
  | hex (digits : List (Fin 16))
  | bin (digits : List Bit)
  | returned
  deriving DecidableEq, Repr

/-- A script line that makes one call (R58). -/
inductive Call where
  /-- `new <KIND> <name> [init=<bit>]`. -/
  | new (kind : Kind) (name : Nat) (init : Option Value)
  /-- `<OP> <field>=<value> ...`. -/
  | op (op : Op) (fields : List (Field × Value))
  /-- `<name>.exec <field>=<value> ...`. -/
  | exec (name : Nat) (fields : List (Field × Value))
  deriving DecidableEq, Repr

/-- The pseudo-operations (R59). -/
inductive Pseudo where
  | set (r : Nat) (v : Value)
  | hold (r : Nat)
  | write (m : Nat) (k v : Value)
  | read (m : Nat) (k : Value)
  | pcLoad (p : Nat) (v : Value)
  | pcReset (p : Nat)
  | pcRead (p : Nat)
  | pcStep (p : Nat)
  deriving DecidableEq, Repr

/-- One thing the driver does. -/
inductive Stimulus where
  /-- Construct a component under a name (R110). -/
  | construct (name : Nat) (c : Construction)
  /-- Discard a component (R110, 70_reset_and_hazards.md R116). -/
  | discard (name : Nat)
  /-- Send a stimulus record, bound to a component or to none (30_encoding.md R53). -/
  | record (bits : List Bit) (binding : Option Nat)
  /-- Run a script line that makes one call (R58). -/
  | call (c : Call)
  /-- Run a pseudo-operation (R59). -/
  | pseudo (p : Pseudo)
  deriving DecidableEq, Repr

end Sys2Proof.Machine
end

