-- ==== Sys2Proof/Machine/State.lean ====
section
/-!
DEFINITION. The state of the block: the components the driver has constructed, each owning its own storage
(10_state.md), and, outside the block, what the driver is going to send, the binding of the current record and what the
calls have returned.
-/

namespace Sys2Proof.Machine

/-- A sequential component and the state it owns (10_state.md R16 to R21).
A RAM is held as the source's tree: a RAM8 is its eight registers (R19), a RAM64 its eight RAM8 children (R20). -/
inductive Instance where
  /-- DFF: the stored bit `s` (R16). -/
  | dff (s : Bit)
  /-- BIT: the `s` of the one storage cell it owns (R17). -/
  | bit (s : Bit)
  /-- REGISTER: `q`, whose lane `j` is the `s` of bit cell `j` (R18). -/
  | register (q : Word)
  /-- RAM8: `M[h]` is the `q` of child register `h` (R19). -/
  | ram8 (m : Eight Word)
  /-- RAM64: `M[8·h + l]` is word `l` of RAM8 child `h` (R20). -/
  | ram64 (m : Eight (Eight Word))
  /-- PC: the `q` of the one register it owns (R21). -/
  | pc (p : Word)
  deriving DecidableEq, Repr

/-- The block's storage: each component under its name.
There is no storage outside components (R15), and each RAM is an address space of its own (20_memory.md R31), so this table
is all the memory there is (log 3).
A name that is not listed is that of no component. -/
abbrev Memory := List (Nat × Instance)

/-- The one canonical form of the table: names strictly rising, so that equal storage is equal data. -/
def Memory.wf : Memory → Bool
  | [] => true
  | [_] => true
  | (m, _) :: (n, j) :: rest => decide (m < n) && Memory.wf ((n, j) :: rest)

/-- What a call returns to its caller (30_encoding.md R48, column "outputs"). -/
inductive Output where
  /-- One signal. -/
  | bit (z : Bit)
  /-- One word. -/
  | word (w : Word)
  /-- The two signals of DMUX, `a` then `b`. -/
  | pair (a b : Bit)
  /-- The eight signals of DMUX8WAY, `s0` first. -/
  | eight (s : Eight Bit)
  deriving DecidableEq, Repr

/-- The state that a step acts on.
`components` is the block's own state (10_state.md R15, R28: there is no other); the other three fields are the model's, and
stand for the driver and the harness (logs 1, 4, 5). -/
structure State where
  /-- The components that exist, by name. -/
  components : Memory
  /-- What the driver is going to send, next first. -/
  queue : List Stimulus
  /-- The component the current record is bound to (30_encoding.md R53). -/
  bound : Option Nat
  /-- What every call so far returned, oldest first. -/
  outs : List Output
  deriving DecidableEq, Repr

/-- The state in which nothing has been constructed, sent or returned.
Reset is construction (70_reset_and_hazards.md R116): a component's initial value is given when the driver constructs it
(R119), so no component exists yet (log 2). -/
def State.reset : State := ⟨[], [], none, []⟩

/-- The block raises no exception (60_exceptions.md R101) and no operation stops: there is no fault at all. -/
inductive Fault where
  deriving DecidableEq, Repr

/-- Why a stimulus is refused at the boundary: never an exception of the block (30_encoding.md R56). -/
inductive Refusal where
  /-- Raised by `exec` for an operation that has no meaning in this model; safe. -/
  | notModelled (mnemonic : String)
  /-- Raised by `runRecord` for a reserved operation field, `refuse(ReservedOp)` (R55); safe. -/
  | reservedOp
  /-- Raised by `runRecord` for a record of another length than R48's, `refuse(BadLength)` (R56); safe. -/
  | badLength
  /-- Raised by `tick`, and by script lines, where no component is bound or one of another kind,
  `refuse(BadInstance)` (R56); safe. -/
  | badInstance
  /-- Raised by script lines for an operand that R58 does not allow, `refuse(BadOperand)` (R56); safe. -/
  | badOperand
  /-- Raised by `step` when the driver has nothing further to send (log 1); safe. -/
  | noStimulus
  deriving DecidableEq, Repr

end Sys2Proof.Machine
end

