-- ==== Sys2Proof/Machine/Ops.lean ====
section
/-!
DEFINITION. The named operations over the components and over what is returned: find, put and erase a component,
return a result, and `tick`, one transition of the bound component (00_scope.md R13).
Nothing here takes an exception or returns from one: the block has none (60_exceptions.md R101, R105, R106).
-/

namespace Sys2Proof.Machine

/-- The component under a name, where there is one. -/
def Memory.find (m : Memory) (n : Nat) : Option Instance :=
  match m with
  | [] => none
  | (k, c) :: rest => if k = n then some c else Memory.find rest n

/-- The table with a component under a name, in the place its name has among the others. -/
def Memory.put (m : Memory) (n : Nat) (c : Instance) : Memory :=
  match m with
  | [] => [(n, c)]
  | (k, d) :: rest =>
    if k = n then (n, c) :: rest
    else if n < k then (n, c) :: (k, d) :: rest
    else (k, d) :: Memory.put rest n c

/-- The table with nothing under a name. -/
def Memory.erase (m : Memory) (n : Nat) : Memory :=
  match m with
  | [] => []
  | (k, c) :: rest => if k = n then Memory.erase rest n else (k, c) :: Memory.erase rest n

/-- A name above every name in use. -/
def Memory.freeName (m : Memory) : Nat := m.foldl (fun acc p => max acc (p.1 + 1)) 0

/-- The call's result goes to its caller (R110): it is the latest of what has been returned. -/
def State.returns (s : State) (o : Output) : State := { s with outs := s.outs ++ [o] }

/-- What the latest call returned. -/
def State.lastOut (s : State) : Option Output := s.outs.getLast?

/-- One tick of the bound component (R13): `f` reads the component as it was before the call, and gives the output and
the component's next state, or nothing for a component of another kind.
With no component bound, or one of another kind, the record is refused (30_encoding.md R56). -/
def tick (f : Instance → Option (Output × Instance)) (s : State) : Host.Outcome State Fault Refusal :=
  match s.bound with
  | none => .refused .badInstance
  | some n =>
    match Memory.find s.components n with
    | none => .refused .badInstance
    | some c =>
      match f c with
      | none => .refused .badInstance
      | some (o, c') => .next ({ s with components := Memory.put s.components n c' }.returns o)

end Sys2Proof.Machine
end

