-- ==== Sys2Proof/Machine/Vectors.lean ====
section
/-!
DEFINITION. Lanes, slices and lane-wise operators of vectors, and selection among eight (00_scope.md R8 to R11).
-/

namespace Sys2Proof

/-- `u(v)`, the unsigned value of a vector (R9). -/
def u {n : Nat} (v : Vec n) : Nat := v.toNat

/-- `v⟨j⟩`, lane `j` of a vector, lane 0 the most significant (R8). -/
def lane {n : Nat} (v : Vec n) (j : Nat) : Bit := v.getMsbD j

/-- The vector whose lane `j` is `f j`. -/
def ofLanes : (n : Nat) → (Nat → Bit) → Vec n
  | 0, _ => 0#0
  | n + 1, f => (ofLanes n f).concat (f n)

/-- The lanes of a vector as a list, lane 0 first. -/
def lanes {n : Nat} (v : Vec n) : List Bit := (List.range n).map (lane v)

/-- `map2(f, a, b)`, the lane-wise operator of R11: lane order is preserved. -/
def map2 {n : Nat} (f : Bit → Bit → Bit) (a b : Vec n) : Vec n :=
  ofLanes n (fun j => f (lane a j) (lane b j))

/-- The word that a signed decimal integer denotes: `u(w) = d mod 65536` (R10). -/
def ofSigned (d : Int) : Word := BitVec.ofInt 16 d

/-- `address[5:3]`, the selector bits of a RAM64 address (20_memory.md R38). -/
def highOf (a : Vec 6) : Vec 3 := ofLanes 3 (fun j => lane a j)

/-- `address[2:0]`, the part of a RAM64 address forwarded to the children (20_memory.md R38). -/
def lowOf (a : Vec 6) : Vec 3 := ofLanes 3 (fun j => lane a (3 + j))

/-- Item `u(i)` of eight: "all eight values of `sel3` select an input" (41_mux_dmux.md R72). -/
def Eight.get {α : Type} (e : Eight α) (i : Vec 3) : α :=
  match u i with
  | 0 => e.v0
  | 1 => e.v1
  | 2 => e.v2
  | 3 => e.v3
  | 4 => e.v4
  | 5 => e.v5
  | 6 => e.v6
  | _ => e.v7

/-- The eight items `f 0` to `f 7`. -/
def Eight.tabulate {α : Type} (f : Nat → α) : Eight α :=
  ⟨f 0, f 1, f 2, f 3, f 4, f 5, f 6, f 7⟩

/-- The same item eight times. -/
def Eight.fill {α : Type} (x : α) : Eight α := ⟨x, x, x, x, x, x, x, x⟩

/-- `f` of each of eight. -/
def Eight.map {α β : Type} (f : α → β) (e : Eight α) : Eight β :=
  ⟨f e.v0, f e.v1, f e.v2, f e.v3, f e.v4, f e.v5, f e.v6, f e.v7⟩

/-- `f` of each of eight and the like-numbered one of another eight. -/
def Eight.zipWith {α β γ : Type} (f : α → β → γ) (e : Eight α) (g : Eight β) : Eight γ :=
  ⟨f e.v0 g.v0, f e.v1 g.v1, f e.v2 g.v2, f e.v3 g.v3,
   f e.v4 g.v4, f e.v5 g.v5, f e.v6 g.v6, f e.v7 g.v7⟩

/-- The eight in order, number 0 first. -/
def Eight.toList {α : Type} (e : Eight α) : List α :=
  [e.v0, e.v1, e.v2, e.v3, e.v4, e.v5, e.v6, e.v7]

end Sys2Proof
end

