-- ==== Sys2Proof/Machine/Gates.lean ====
section
/-!
DEFINITION. The boolean gate layer (40_gates.md): each gate by its expansion into NAND, and its meaning, which returns the
output and touches nothing else (00_scope.md R12).
-/

namespace Sys2Proof.Machine

/-- NAND, the primitive (R62). -/
def nandGate (x y : Bit) : Bit := if x = true ∧ y = true then false else true

/-- `not(x) = nand(x, x)` (R63). -/
def notGate (x : Bit) : Bit := nandGate x x

/-- `and(x, y) = not(nand(x, y))` (R64). -/
def andGate (x y : Bit) : Bit := notGate (nandGate x y)

/-- `or(x, y) = nand(not(x), not(y))` (R65). -/
def orGate (x y : Bit) : Bit := nandGate (notGate x) (notGate y)

/-- `nor(x, y) = not(or(x, y))` (R66). -/
def norGate (x y : Bit) : Bit := notGate (orGate x y)

/-- The four-NAND network of XOR (R67). -/
def xorGate (x y : Bit) : Bit :=
  let t := nandGate x y
  nandGate (nandGate x t) (nandGate t y)

/-- `map2(and, a, b)` (R68). -/
def and16Gate (a b : Word) : Word := map2 andGate a b

/-- NAND (R62). -/
def execNand (x y : Bit) (s : State) : Host.Outcome State Fault Refusal :=
  .next (s.returns (.bit (nandGate x y)))

/-- NOT (R63). -/
def execNot (x : Bit) (s : State) : Host.Outcome State Fault Refusal :=
  .next (s.returns (.bit (notGate x)))

/-- AND (R64). -/
def execAnd (x y : Bit) (s : State) : Host.Outcome State Fault Refusal :=
  .next (s.returns (.bit (andGate x y)))

/-- OR (R65). -/
def execOr (x y : Bit) (s : State) : Host.Outcome State Fault Refusal :=
  .next (s.returns (.bit (orGate x y)))

/-- NOR (R66). -/
def execNor (x y : Bit) (s : State) : Host.Outcome State Fault Refusal :=
  .next (s.returns (.bit (norGate x y)))

/-- XOR (R67). -/
def execXor (x y : Bit) (s : State) : Host.Outcome State Fault Refusal :=
  .next (s.returns (.bit (xorGate x y)))

/-- AND16 (R68). -/
def execAnd16 (a b : Word) (s : State) : Host.Outcome State Fault Refusal :=
  .next (s.returns (.word (and16Gate a b)))

end Sys2Proof.Machine
end

