-- ==== Sys2Proof/Machine/Multiplexers.lean ====
section
/-!
DEFINITION. Multiplexers and demultiplexers (41_mux_dmux.md).
The source gives MUX8WAY16 and DMUX8WAY only as functions of the selector's unsigned value (91_not_in_source.md N5).
-/

namespace Sys2Proof.Machine

/-- `or(and(x, not(sel)), and(y, sel))` (R70). -/
def muxGate (x y sel : Bit) : Bit := orGate (andGate x (notGate sel)) (andGate y sel)

/-- `mux` in every lane with the one scalar `sel` (R71). -/
def mux16Gate (a b : Word) (sel : Bit) : Word := map2 (fun x y => muxGate x y sel) a b

/-- The whole word `v_i`, `i = u(sel3)` (R72). -/
def mux8way16Gate (v : Eight Word) (sel3 : Vec 3) : Word := v.get sel3

/-- `a = and(input, not(sel))`, `b = and(input, sel)` (R73). -/
def dmuxGate (input sel : Bit) : Bit × Bit := (andGate input (notGate sel), andGate input sel)

/-- `s_k = if k = u(sel3) then input else 0` (R74). -/
def dmux8wayGate (input : Bit) (sel3 : Vec 3) : Eight Bit :=
  Eight.tabulate (fun k => if k = u sel3 then input else false)

/-- MUX (R70). -/
def execMux (x y sel : Bit) (s : State) : Host.Outcome State Fault Refusal :=
  .next (s.returns (.bit (muxGate x y sel)))

/-- MUX16 (R71). -/
def execMux16 (a b : Word) (sel : Bit) (s : State) : Host.Outcome State Fault Refusal :=
  .next (s.returns (.word (mux16Gate a b sel)))

/-- MUX8WAY16 (R72). -/
def execMux8way16 (v : Eight Word) (sel3 : Vec 3) (s : State) : Host.Outcome State Fault Refusal :=
  .next (s.returns (.word (mux8way16Gate v sel3)))

/-- DMUX (R73). -/
def execDmux (input sel : Bit) (s : State) : Host.Outcome State Fault Refusal :=
  .next (s.returns (.pair (dmuxGate input sel).1 (dmuxGate input sel).2))

/-- DMUX8WAY (R74). -/
def execDmux8way (input : Bit) (sel3 : Vec 3) (s : State) : Host.Outcome State Fault Refusal :=
  .next (s.returns (.eight (dmux8wayGate input sel3)))

end Sys2Proof.Machine
end

