-- ==== Sys2Proof/Machine/Storage.lean ====
section
/-!
DEFINITION. Flip-flop, bit cell and register (42_storage.md), each composed as the source composes it.
A transition gives the output and the state after the tick, both computed from the state before it (00_scope.md R13).
-/

namespace Sys2Proof.Machine

/-- `out = f.s; f.s <- input` (R77). -/
def dffTick (s input : Bit) : Bit × Bit := (s, input)

/-- `next = mux(c.s, input, load)`, fed into the owned storage cell (R79). -/
def bitTick (s input load : Bit) : Bit × Bit := dffTick s (muxGate s input load)

/-- Sixteen bit cells, the same `load` applied to every one (R81, R82). -/
def registerTick (q input : Word) (load : Bit) : Word × Word :=
  (ofLanes 16 (fun j => (bitTick (lane q j) (lane input j) load).1),
   ofLanes 16 (fun j => (bitTick (lane q j) (lane input j) load).2))

/-- The tick of a component that is a DFF. -/
def dffStep (input : Bit) : Instance → Option (Output × Instance)
  | .dff s => some (.bit (dffTick s input).1, .dff (dffTick s input).2)
  | .bit _ | .register _ | .ram8 _ | .ram64 _ | .pc _ => none

/-- The tick of a component that is a BIT. -/
def bitStep (input load : Bit) : Instance → Option (Output × Instance)
  | .bit s => some (.bit (bitTick s input load).1, .bit (bitTick s input load).2)
  | .dff _ | .register _ | .ram8 _ | .ram64 _ | .pc _ => none

/-- The tick of a component that is a REGISTER. -/
def registerStep (input : Word) (load : Bit) : Instance → Option (Output × Instance)
  | .register q => some (.word (registerTick q input load).1, .register (registerTick q input load).2)
  | .dff _ | .bit _ | .ram8 _ | .ram64 _ | .pc _ => none

/-- DFF.exec (R77). -/
def execDff (input : Bit) (s : State) : Host.Outcome State Fault Refusal := tick (dffStep input) s

/-- BIT.exec (R79). -/
def execBit (input load : Bit) (s : State) : Host.Outcome State Fault Refusal := tick (bitStep input load) s

/-- REGISTER.exec (R81). -/
def execRegister (input : Word) (load : Bit) (s : State) : Host.Outcome State Fault Refusal :=
  tick (registerStep input load) s

end Sys2Proof.Machine
end

