-- ==== Sys2Proof/Machine/ProgramCounter.lean ====
section
/-!
DEFINITION. The external incrementer and the program counter (44_pc.md; 90_conflicts.md C1 and C2).
-/

namespace Sys2Proof.Machine

/-- `u(out) = (u(v) + 1) mod 65536` (R93). -/
def inc16Function (v : Word) : Word := BitVec.ofNat 16 (u v + 1)

/-- PC.exec as the source composes it (R95): increment, then the `inc`, `load` and `reset` multiplexers, all from `input`
and none from the stored word, then the register with `load` as its enable. -/
def pcTick (p input : Word) (load reset inc : Bit) : Word × Word :=
  let incv := inc16Function input
  let t1 := mux16Gate input incv inc
  let t2 := mux16Gate t1 input load
  let t3 := mux16Gate t2 0x0000 reset
  registerTick p t3 load

/-- The tick of a component that is a PC. -/
def pcStep (input : Word) (load reset inc : Bit) : Instance → Option (Output × Instance)
  | .pc p => some (.word (pcTick p input load reset inc).1, .pc (pcTick p input load reset inc).2)
  | .dff _ | .bit _ | .register _ | .ram8 _ | .ram64 _ => none

/-- PC.exec (R95). -/
def execPc (input : Word) (load reset inc : Bit) (s : State) : Host.Outcome State Fault Refusal :=
  tick (pcStep input load reset inc) s

/-- INC16 (R93). -/
def execInc16 (v : Word) (s : State) : Host.Outcome State Fault Refusal :=
  .next (s.returns (.word (inc16Function v)))

end Sys2Proof.Machine
end

