-- ==== Sys2Proof/Machine/Ram.lean ====
section
/-!
DEFINITION. Hierarchical RAM (43_ram.md): one tier over any eight children, RAM8 as a tier of registers and RAM64 as a
tier of RAM8s (decision D13: no larger tier belongs to the block).
-/

namespace Sys2Proof.Machine

/-- One tier of the pattern of R84, over children whose tick takes `input` and `load` and gives output and next state.
Every child is evaluated on the one snapshot, with the same `input` and its own bit of the demultiplexed `load` (R91);
the output is the addressed child's output of this call. -/
def ramTier {α : Type} (childTick : α → Word → Bit → Word × α)
    (children : Eight α) (input : Word) (load : Bit) (high : Vec 3) : Word × Eight α :=
  let sel := dmux8wayGate load high
  let results := Eight.zipWith (fun c l => childTick c input l) children sel
  (mux8way16Gate (results.map Prod.fst) high, results.map Prod.snd)

/-- RAM8.exec: the tier of eight registers, the whole address as `high` (R85). -/
def ram8Tick (m : Eight Word) (input : Word) (load : Bit) (address : Vec 3) : Word × Eight Word :=
  ramTier registerTick m input load address

/-- RAM64.exec: the tier of eight RAM8s, `low` forwarded to every child (R87). -/
def ram64Tick (m : Eight (Eight Word)) (input : Word) (load : Bit) (address : Vec 6) :
    Word × Eight (Eight Word) :=
  ramTier (fun c w l => ram8Tick c w l (lowOf address)) m input load (highOf address)

/-- The word array `M[0..7]` of a RAM8 (10_state.md R19). -/
def ram8Words (m : Eight Word) : List Word := m.toList

/-- The word array `M[0..63]` of a RAM64, `M[8·h + l]` word `l` of child `h` (10_state.md R20). -/
def ram64Words (m : Eight (Eight Word)) : List Word := m.toList.flatMap Eight.toList

/-- The tick of a component that is a RAM8. -/
def ram8Step (input : Word) (load : Bit) (address : Vec 3) : Instance → Option (Output × Instance)
  | .ram8 m => some (.word (ram8Tick m input load address).1, .ram8 (ram8Tick m input load address).2)
  | .dff _ | .bit _ | .register _ | .ram64 _ | .pc _ => none

/-- The tick of a component that is a RAM64. -/
def ram64Step (input : Word) (load : Bit) (address : Vec 6) : Instance → Option (Output × Instance)
  | .ram64 m => some (.word (ram64Tick m input load address).1, .ram64 (ram64Tick m input load address).2)
  | .dff _ | .bit _ | .register _ | .ram8 _ | .pc _ => none

/-- RAM8.exec (R85). -/
def execRam8 (input : Word) (load : Bit) (address : Vec 3) (s : State) : Host.Outcome State Fault Refusal :=
  tick (ram8Step input load address) s

/-- RAM64.exec (R87). -/
def execRam64 (input : Word) (load : Bit) (address : Vec 6) (s : State) : Host.Outcome State Fault Refusal :=
  tick (ram64Step input load address) s

end Sys2Proof.Machine
end

