-- ==== Sys2Proof/Machine/Dispatch.lean ====
section
/-!
DEFINITION. The meaning of every operation of 30_encoding.md R48, one arm each.
-/

namespace Sys2Proof.Machine

def exec (i : Instr) (s : State) : Host.Outcome State Fault Refusal :=
  match i with
  | .nand x y => Sys2Proof.Machine.execNand x y s
  | .not x => Sys2Proof.Machine.execNot x s
  | .and x y => Sys2Proof.Machine.execAnd x y s
  | .or x y => Sys2Proof.Machine.execOr x y s
  | .nor x y => Sys2Proof.Machine.execNor x y s
  | .xor x y => Sys2Proof.Machine.execXor x y s
  | .and16 a b => Sys2Proof.Machine.execAnd16 a b s
  | .mux x y sel => Sys2Proof.Machine.execMux x y sel s
  | .mux16 a b sel => Sys2Proof.Machine.execMux16 a b sel s
  | .mux8way16 v sel3 => Sys2Proof.Machine.execMux8way16 v sel3 s
  | .dmux input sel => Sys2Proof.Machine.execDmux input sel s
  | .dmux8way input sel3 => Sys2Proof.Machine.execDmux8way input sel3 s
  | .dff input => Sys2Proof.Machine.execDff input s
  | .bit input load => Sys2Proof.Machine.execBit input load s
  | .register input load => Sys2Proof.Machine.execRegister input load s
  | .ram8 input load address => Sys2Proof.Machine.execRam8 input load address s
  | .ram64 input load address => Sys2Proof.Machine.execRam64 input load address s
  | .pc input load reset inc => Sys2Proof.Machine.execPc input load reset inc s
  | .inc16 v => Sys2Proof.Machine.execInc16 v s

end Sys2Proof.Machine
end

