-- ==== Sys2Proof/WellFormed.lean ====
section
/-!
DEFINITION. What makes a stimulus record well formed (30_encoding.md R54 to R57).
The operands of an `Instr` have the types and widths of R48, so every term of it is well formed and nothing is
left to check there (decision D4: "Signals are `Bit`, vectors fixed-width types").
The checks stand where a stimulus could still be wrong: on the record's bits.
-/

namespace Sys2Proof

/-- The record is long enough to hold an operation field (R54: "A decoder reads the first 5 bits"). -/
def hasOpField (r : List Bit) : Bool := decide (Config.opFieldWidth ≤ r.length)

/-- The record's operation field is not reserved (R55). -/
def opIsAssigned (r : List Bit) : Bool := (opOfRecord r).isSome

/-- The record has the length that R48 gives its operation field (R56). -/
def lengthFits (r : List Bit) : Bool :=
  match opOfRecord r with
  | some op => r.length == op.recordLength
  | none => false

/-- A record that R55 and R56 do not refuse for its bits. -/
def recordWellFormed (r : List Bit) : Bool := hasOpField r && opIsAssigned r && lengthFits r

end Sys2Proof
end

