-- ==== Sys2Proof/Decode.lean ====
section
/-!
DEFINITION. Decoding and encoding of stimulus records (30_encoding.md R46 to R57), and the host's numbering of a
record's bits as one number.
-/

namespace Sys2Proof

/-- Why a record is refused for its bits: `ReservedOp` (R55) or `BadLength` (R56). -/
inductive DecodeError where
  | reservedOp
  | badLength
  deriving DecidableEq, Repr

/-- The 1-bit field at an offset from the record's first bit (R50). -/
def bitField (r : List Bit) (offset : Nat) : Bit := r.getD offset false

/-- The `n`-bit field at an offset from the record's first bit, most significant lane first (R50). -/
def vecField (n : Nat) (r : List Bit) (offset : Nat) : Vec n :=
  ofLanes n (fun j => r.getD (offset + j) false)

/-- The eight words of a MUX8WAY16 record, v0 first (R48, format M8). -/
def wordFields8 (r : List Bit) : Eight Word :=
  ⟨vecField 16 r 5, vecField 16 r 21, vecField 16 r 37, vecField 16 r 53,
   vecField 16 r 69, vecField 16 r 85, vecField 16 r 101, vecField 16 r 117⟩

/-- The operands of a record of the given operation, each at its offset (R47, R48). -/
def decodeFields (op : Op) (r : List Bit) : Instr :=
  match op with
  | .nand => .nand (bitField r 5) (bitField r 6)
  | .not => .not (bitField r 5)
  | .and => .and (bitField r 5) (bitField r 6)
  | .or => .or (bitField r 5) (bitField r 6)
  | .nor => .nor (bitField r 5) (bitField r 6)
  | .xor => .xor (bitField r 5) (bitField r 6)
  | .and16 => .and16 (vecField 16 r 5) (vecField 16 r 21)
  | .mux => .mux (bitField r 5) (bitField r 6) (bitField r 7)
  | .mux16 => .mux16 (vecField 16 r 5) (vecField 16 r 21) (bitField r 37)
  | .mux8way16 => .mux8way16 (wordFields8 r) (vecField 3 r 133)
  | .dmux => .dmux (bitField r 5) (bitField r 6)
  | .dmux8way => .dmux8way (bitField r 5) (vecField 3 r 6)
  | .dff => .dff (bitField r 5)
  | .bit => .bit (bitField r 5) (bitField r 6)
  | .register => .register (vecField 16 r 5) (bitField r 21)
  | .ram8 => .ram8 (vecField 16 r 5) (bitField r 21) (vecField 3 r 22)
  | .ram64 => .ram64 (vecField 16 r 5) (bitField r 21) (vecField 6 r 22)
  | .pc => .pc (vecField 16 r 5) (bitField r 21) (bitField r 22) (bitField r 23)
  | .inc16 => .inc16 (vecField 16 r 5)

/-- Reads one record from the front of a string of bits: the operation field, then exactly the bits that R48 gives it
(R54).
A string with no whole operation field is a `BadLength` (DEDUCED, safe: log 7); a reserved field is a `ReservedOp`
whatever follows it (DEDUCED, safe: log 8). -/
def decodeFront (bits : List Bit) : Except DecodeError (Instr × List Bit) :=
  if bits.length < Config.opFieldWidth then .error .badLength
  else
    match opOfRecord bits with
    | none => .error .reservedOp
    | some op =>
      if bits.length < op.recordLength then .error .badLength
      else .ok (decodeFields op bits, bits.drop op.recordLength)

/-- Decodes one whole record: its length is R48's for its operation field, no more and no less (R56). -/
def decode (r : List Bit) : Except DecodeError Instr :=
  match decodeFront r with
  | .error e => .error e
  | .ok (i, []) => .ok i
  | .ok (_, _ :: _) => .error .badLength

/-- The operation field of R48, first bit first. -/
def Op.field : Op → List Bit
  | .nand => [false, false, false, false, false]
  | .not => [false, false, false, false, true]
  | .and => [false, false, false, true, false]
  | .or => [false, false, false, true, true]
  | .nor => [false, false, true, false, false]
  | .xor => [false, false, true, false, true]
  | .and16 => [false, false, true, true, false]
  | .mux => [false, false, true, true, true]
  | .mux16 => [false, true, false, false, false]
  | .mux8way16 => [false, true, false, false, true]
  | .dmux => [false, true, false, true, false]
  | .dmux8way => [false, true, false, true, true]
  | .dff => [false, true, true, false, false]
  | .bit => [false, true, true, false, true]
  | .register => [false, true, true, true, false]
  | .ram8 => [false, true, true, true, true]
  | .ram64 => [true, false, false, false, false]
  | .pc => [true, false, false, false, true]
  | .inc16 => [true, false, false, true, false]

/-- The input fields of a call in record order (R48), each lane 0 first (R47). -/
def encodeFields : Instr → List Bit
  | .nand x y => [x, y]
  | .not x => [x]
  | .and x y => [x, y]
  | .or x y => [x, y]
  | .nor x y => [x, y]
  | .xor x y => [x, y]
  | .and16 a b => lanes a ++ lanes b
  | .mux x y sel => [x, y, sel]
  | .mux16 a b sel => lanes a ++ lanes b ++ [sel]
  | .mux8way16 v sel3 =>
    lanes v.v0 ++ lanes v.v1 ++ lanes v.v2 ++ lanes v.v3
      ++ lanes v.v4 ++ lanes v.v5 ++ lanes v.v6 ++ lanes v.v7 ++ lanes sel3
  | .dmux input sel => [input, sel]
  | .dmux8way input sel3 => [input] ++ lanes sel3
  | .dff input => [input]
  | .bit input load => [input, load]
  | .register input load => lanes input ++ [load]
  | .ram8 input load address => lanes input ++ [load] ++ lanes address
  | .ram64 input load address => lanes input ++ [load] ++ lanes address
  | .pc input load reset inc => lanes input ++ [load, reset, inc]
  | .inc16 v => lanes v

/-- The stimulus record of a call: the operation field, then the input fields (R47). -/
def encode (i : Instr) : List Bit := i.op.field ++ encodeFields i

/-- The five bits of an operation number, most significant first. -/
def opFieldOfNumber (k : Nat) : List Bit :=
  [k.testBit 4, k.testBit 3, k.testBit 2, k.testBit 1, k.testBit 0]

/-- The record whose bits spec/opcode_table.json numbers as the number `w` (R49; log 6): the low five bits of `w` are the
operation field read as an unsigned number (the row's `match`), and bit `k` of `w`, from 5 on, is the record's bit at
offset `k`.
The record has the length R48 gives its operation; bits of `w` from `nbits` on count as 0. -/
def recordOfTableWord (nbits w : Nat) : List Bit :=
  let value := w % 2 ^ nbits
  let field := opFieldOfNumber (value % 32)
  match opOfRecord field with
  | none => field
  | some op => field ++ (List.range (op.recordLength - 5)).map (fun k => value.testBit (5 + k))

/-- The instruction the decoder reads from a word numbered as spec/opcode_table.json numbers it. -/
def decodeTableWord (nbits w : Nat) : Option Instr :=
  match decode (recordOfTableWord nbits w) with
  | .ok i => some i
  | .error _ => none

end Sys2Proof
end

