-- ==== Sys2Proof/Machine/Operands.lean ====
section
/-!
DEFINITION. The operand forms of a script line and how a line becomes a call (30_encoding.md R58, R59), and the bit
string of a result (R61).
-/

namespace Sys2Proof.Machine

/-- A result as the bit string of its outputs in order, each lane 0 first (R61). -/
def Output.bits : Output → List Bit
  | .bit z => [z]
  | .word w => lanes w
  | .pair a b => [a, b]
  | .eight s => s.toList

/-- The operation whose records act on a component of this kind (R48, R53). -/
def Kind.op : Kind → Op
  | .dff => .dff
  | .bit => .bit
  | .register => .register
  | .ram8 => .ram8
  | .ram64 => .ram64
  | .pc => .pc

/-- The kind of a component. -/
def Instance.kind : Instance → Kind
  | .dff _ => .dff
  | .bit _ => .bit
  | .register _ => .register
  | .ram8 _ => .ram8
  | .ram64 _ => .ram64
  | .pc _ => .pc

/-- The kind of component an operation acts on; none for a combinational operation, which needs no component (R53). -/
def kindOfOp : Op → Option Kind
  | .dff => some .dff
  | .bit => some .bit
  | .register => some .register
  | .ram8 => some .ram8
  | .ram64 => some .ram64
  | .pc => some .pc
  | .nand | .not | .and | .or | .nor | .xor | .and16
  | .mux | .mux16 | .mux8way16 | .dmux | .dmux8way | .inc16 => none

/-- The initial state of a component (10_state.md R30). -/
def Construction.fresh : Construction → Instance
  | .dff init => .dff init
  | .bit => .bit false
  | .register => .register 0x0000
  | .ram8 => .ram8 (Eight.fill 0x0000)
  | .ram64 => .ram64 (Eight.fill (Eight.fill 0x0000))
  | .pc => .pc 0x0000

/-- A `Bit` value: `0` or `1` (R58). -/
def Value.toBit (last : Option Output) : Value → Except Refusal Bit
  | .dec 0 => .ok false
  | .dec 1 => .ok true
  | .dec _ => .error .badOperand
  | .hex _ => .error .badOperand
  | .bin _ => .error .badOperand
  | .returned =>
    match last with
    | some (.bit z) => .ok z
    | _ => .error .badOperand

/-- The number that hexadecimal digits denote, most significant first. -/
def hexNumber (digits : List (Fin 16)) : Nat := digits.foldl (fun acc d => 16 * acc + d.val) 0

/-- A `Word` value: a signed decimal in -32768..32767 (R10), `0x` and exactly 4 hexadecimal digits, or `0b` and exactly
16 binary digits (R58). -/
def Value.toWord (last : Option Output) : Value → Except Refusal Word
  | .dec d => if -32768 ≤ d ∧ d ≤ 32767 then .ok (ofSigned d) else .error .badOperand
  | .hex ds => if ds.length = 4 then .ok (BitVec.ofNat 16 (hexNumber ds)) else .error .badOperand
  | .bin bs => if bs.length = 16 then .ok (vecField 16 bs 0) else .error .badOperand
  | .returned =>
    match last with
    | some (.word w) => .ok w
    | _ => .error .badOperand

/-- A `sel3` or `address` value: an unsigned decimal that fits, or `0b` with exactly the field's width in digits (R58). -/
def Value.toVec (n : Nat) : Value → Except Refusal (Vec n)
  | .dec d => if 0 ≤ d ∧ d < 2 ^ n then .ok (BitVec.ofNat n d.toNat) else .error .badOperand
  | .bin bs => if bs.length = n then .ok (vecField n bs 0) else .error .badOperand
  | .hex _ => .error .badOperand
  | .returned => .error .badOperand

/-- The fields an operation takes, in record order (R48). -/
def opFields : Op → List Field
  | .nand => [.x, .y]
  | .not => [.x]
  | .and => [.x, .y]
  | .or => [.x, .y]
  | .nor => [.x, .y]
  | .xor => [.x, .y]
  | .and16 => [.a, .b]
  | .mux => [.x, .y, .sel]
  | .mux16 => [.a, .b, .sel]
  | .mux8way16 => [.v0, .v1, .v2, .v3, .v4, .v5, .v6, .v7, .sel3]
  | .dmux => [.input, .sel]
  | .dmux8way => [.input, .sel3]
  | .dff => [.input]
  | .bit => [.input, .load]
  | .register => [.input, .load]
  | .ram8 => [.input, .load, .address]
  | .ram64 => [.input, .load, .address]
  | .pc => [.input, .load, .reset, .inc]
  | .inc16 => [.v]

/-- A line gives exactly the fields of its operation, each once, in any order ("Every field must be given once", R58). -/
def fieldsGivenOnce (op : Op) (fs : List (Field × Value)) : Bool :=
  fs.length == (opFields op).length && (opFields op).all (fun f => (fs.map Prod.fst).contains f)

/-- The value a line gives a field. -/
def fieldValue (fs : List (Field × Value)) (f : Field) : Except Refusal Value :=
  match fs.find? (fun p => p.1 == f) with
  | some p => .ok p.2
  | none => .error .badOperand

/-- A line's 1-bit field. -/
def lineBit (last : Option Output) (fs : List (Field × Value)) (f : Field) : Except Refusal Bit :=
  (fieldValue fs f).bind (Value.toBit last)

/-- A line's word field. -/
def lineWord (last : Option Output) (fs : List (Field × Value)) (f : Field) : Except Refusal Word :=
  (fieldValue fs f).bind (Value.toWord last)

/-- A line's selector or address field. -/
def lineVec (n : Nat) (fs : List (Field × Value)) (f : Field) : Except Refusal (Vec n) :=
  (fieldValue fs f).bind (Value.toVec n)

/-- The operands of a line whose fields are the operation's. -/
def assembleFields (last : Option Output) (fs : List (Field × Value)) : Op → Except Refusal Instr
  | .nand => do return .nand (← lineBit last fs .x) (← lineBit last fs .y)
  | .not => do return .not (← lineBit last fs .x)
  | .and => do return .and (← lineBit last fs .x) (← lineBit last fs .y)
  | .or => do return .or (← lineBit last fs .x) (← lineBit last fs .y)
  | .nor => do return .nor (← lineBit last fs .x) (← lineBit last fs .y)
  | .xor => do return .xor (← lineBit last fs .x) (← lineBit last fs .y)
  | .and16 => do return .and16 (← lineWord last fs .a) (← lineWord last fs .b)
  | .mux => do return .mux (← lineBit last fs .x) (← lineBit last fs .y) (← lineBit last fs .sel)
  | .mux16 => do return .mux16 (← lineWord last fs .a) (← lineWord last fs .b) (← lineBit last fs .sel)
  | .mux8way16 => do
    return .mux8way16
      ⟨← lineWord last fs .v0, ← lineWord last fs .v1, ← lineWord last fs .v2, ← lineWord last fs .v3,
       ← lineWord last fs .v4, ← lineWord last fs .v5, ← lineWord last fs .v6, ← lineWord last fs .v7⟩
      (← lineVec 3 fs .sel3)
  | .dmux => do return .dmux (← lineBit last fs .input) (← lineBit last fs .sel)
  | .dmux8way => do return .dmux8way (← lineBit last fs .input) (← lineVec 3 fs .sel3)
  | .dff => do return .dff (← lineBit last fs .input)
  | .bit => do return .bit (← lineBit last fs .input) (← lineBit last fs .load)
  | .register => do return .register (← lineWord last fs .input) (← lineBit last fs .load)
  | .ram8 => do
    return .ram8 (← lineWord last fs .input) (← lineBit last fs .load) (← lineVec 3 fs .address)
  | .ram64 => do
    return .ram64 (← lineWord last fs .input) (← lineBit last fs .load) (← lineVec 6 fs .address)
  | .pc => do
    return .pc (← lineWord last fs .input) (← lineBit last fs .load) (← lineBit last fs .reset)
      (← lineBit last fs .inc)
  | .inc16 => do return .inc16 (← lineWord last fs .v)

/-- The call that a line makes: a field missing, given twice or not of the operation is a `BadOperand` (log 11), and so is
a value outside the forms and ranges of R58 (R56). -/
def assemble (last : Option Output) (op : Op) (fs : List (Field × Value)) : Except Refusal Instr :=
  if fieldsGivenOnce op fs then assembleFields last fs op else .error .badOperand

/-- The construct call of a `new` line: `init=` is allowed only for DFF and is 0 where it is left out (R58). -/
def assembleNew (last : Option Output) : Kind → Option Value → Except Refusal Construction
  | .dff, none => .ok (.dff Config.dffInitDefault)
  | .dff, some v => (v.toBit last).map .dff
  | .bit, none => .ok .bit
  | .register, none => .ok .register
  | .ram8, none => .ok .ram8
  | .ram64, none => .ok .ram64
  | .pc, none => .ok .pc
  | .bit, some _ => .error .badOperand
  | .register, some _ => .error .badOperand
  | .ram8, some _ => .error .badOperand
  | .ram64, some _ => .error .badOperand
  | .pc, some _ => .error .badOperand

/-- The component a pseudo-operation acts on (R59). -/
def Pseudo.target : Pseudo → Nat
  | .set r _ => r
  | .hold r => r
  | .write m _ _ => m
  | .read m _ => m
  | .pcLoad p _ => p
  | .pcReset p => p
  | .pcRead p => p
  | .pcStep p => p

/-- The kinds of component a pseudo-operation is for (R59). -/
def Pseudo.allows : Pseudo → Kind → Bool
  | .set _ _, k => k == .bit || k == .register
  | .hold _, k => k == .bit || k == .register
  | .write _ _ _, k => k == .ram8 || k == .ram64
  | .read _ _, k => k == .ram8 || k == .ram64
  | .pcLoad _ _, k => k == .pc
  | .pcReset _, k => k == .pc
  | .pcRead _, k => k == .pc
  | .pcStep _, k => k == .pc

/-- The line `p.exec input=v load=l reset=r inc=0` of R59's PC expansions. -/
def pcLine (p : Nat) (v : Value) (l r : Int) : Call :=
  .exec p [(.input, v), (.load, .dec l), (.reset, .dec r), (.inc, .dec 0)]

/-- The expansion of a pseudo-operation: its first line, and the lines after it (R59).
PCSTEP makes the INC16 call between its two ticks, as 95_test_vectors.md P2 writes it. -/
def Pseudo.expand : Pseudo → Call × List Call
  | .set r v => (.exec r [(.input, v), (.load, .dec 1)], [])
  | .hold r => (.exec r [(.input, .dec 0), (.load, .dec 0)], [])
  | .write m k v => (.exec m [(.input, v), (.load, .dec 1), (.address, k)], [])
  | .read m k => (.exec m [(.input, .dec 0), (.load, .dec 0), (.address, k)], [])
  | .pcLoad p v => (pcLine p v 1 0, [])
  | .pcReset p => (pcLine p (.dec 0) 1 1, [])
  | .pcRead p => (pcLine p (.dec 0) 0 0, [])
  | .pcStep p => (pcLine p (.dec 0) 0 0, [.op .inc16 [(.v, .returned)], pcLine p .returned 1 0])

end Sys2Proof.Machine
end

