-- ==== Sys2Proof/Machine/Driver.lean ====
section
/-!
DEFINITION. What each thing the driver sends does (60_exceptions.md R110, 30_encoding.md R53 to R60), and how the host's
word for a row of the table becomes the next thing sent.
-/

namespace Sys2Proof.Machine

/-- A record, bound to a component or to none (R53): decoded, then executed.
A record that is refused is not executed (R55, R56).
The record is decoded before its binding is looked at, so one that has both a wrong length and no component of its kind bound
is a `BadLength`: R56 gives no order (DESIGN CHOICE, safe: log 18). -/
def runRecord (bits : List Bit) (binding : Option Nat) (s : State) : Host.Outcome State Fault Refusal :=
  match decode bits with
  | .error .reservedOp => .refused .reservedOp
  | .error .badLength => .refused .badLength
  | .ok i => exec i { s with bound := binding }

/-- A construct call gives a fresh component (R110) in its initial state (10_state.md R30).
Under a name in use it takes the place of the component there (DESIGN CHOICE, unsafe: log 9). -/
def construct (name : Nat) (c : Construction) (s : State) : Host.Outcome State Fault Refusal :=
  .next { s with components := Memory.put s.components name c.fresh }

/-- The driver discards a component (R110, 70_reset_and_hazards.md R116); under a name not in use nothing happens
(DESIGN CHOICE, unsafe: log 10). -/
def discard (name : Nat) (s : State) : Host.Outcome State Fault Refusal :=
  .next { s with components := Memory.erase s.components name }

/-- A script line that makes one call (R58): an `exec` line encodes as the record of its component's kind, bound to that
component; a line of a bare operation encodes as its record, bound to none.
An `exec` line's component is looked up before its operands are read, since its kind says which fields it takes; a bare line's
operands are read first.
So a line wrong in both ways is a `BadInstance` in the first form and a `BadOperand` in the second: R56 gives no order
(DESIGN CHOICE, safe: log 19). -/
def runCall (c : Call) (s : State) : Host.Outcome State Fault Refusal :=
  match c with
  | .new kind name init =>
    match assembleNew s.lastOut kind init with
    | .error r => .refused r
    | .ok k => construct name k s
  | .op op fields =>
    match assemble s.lastOut op fields with
    | .error r => .refused r
    | .ok i => runRecord (encode i) none s
  | .exec name fields =>
    match Memory.find s.components name with
    | none => .refused .badInstance
    | some c =>
      match assemble s.lastOut c.kind.op fields with
      | .error r => .refused r
      | .ok i => runRecord (encode i) (some name) s

/-- A pseudo-operation (R59): the first line of its expansion runs, and the others are next in line.
On a component of a kind it is not for, it is refused (DESIGN CHOICE, safe: log 13), and that before its operands are read
(DESIGN CHOICE, safe: log 19). -/
def runPseudo (p : Pseudo) (s : State) : Host.Outcome State Fault Refusal :=
  match Memory.find s.components p.target with
  | none => .refused .badInstance
  | some c =>
    if p.allows c.kind then
      runCall p.expand.1 { s with queue := p.expand.2.map Stimulus.call ++ s.queue }
    else .refused .badInstance

/-- Whatever the driver sends. -/
def runStimulus (e : Stimulus) (s : State) : Host.Outcome State Fault Refusal :=
  match e with
  | .construct name c => construct name c s
  | .discard name => discard name s
  | .record bits binding => runRecord bits binding s
  | .call c => runCall c s
  | .pseudo p => runPseudo p s

/-- The construct call of a kind with no argument, a DFF's `dff_init` at the script's default (R58). -/
def Kind.construction : Kind → Construction
  | .dff => .dff Config.dffInitDefault
  | .bit => .bit
  | .register => .register
  | .ram8 => .ram8
  | .ram64 => .ram64
  | .pc => .pc

/-- The first name of a component of a kind. -/
def Memory.firstOfKind (m : Memory) (k : Kind) : Option Nat :=
  match m with
  | [] => none
  | (n, c) :: rest => if c.kind = k then some n else Memory.firstOfKind rest k

/-- `s` with a record as the next thing sent, bound as R53 asks: to the first component of the record's kind, to a freshly
constructed one where there is none, to none for a combinational record (log 6). -/
def sendRecordNext (bits : List Bit) (s : State) : State :=
  match (opOfRecord bits).bind kindOfOp with
  | none => { s with queue := .record bits none :: s.queue }
  | some k =>
    match Memory.firstOfKind s.components k with
    | some n => { s with queue := .record bits (some n) :: s.queue }
    | none =>
      { s with
        components := Memory.put s.components (Memory.freeName s.components) k.construction.fresh
        queue := .record bits (some (Memory.freeName s.components)) :: s.queue }

end Sys2Proof.Machine
end

