-- ==== Sys2Proof/Machine/Step.lean ====
section
/-!
DEFINITION. One step: the block does what the driver sends next (60_exceptions.md R108: components do not step on their own).
-/

namespace Sys2Proof.Machine

/-- Takes the next thing the driver sends and does it; with nothing to do there is no step (log 1). -/
def step (s : State) : Host.Outcome State Fault Refusal :=
  match s.queue with
  | [] => .refused .noStimulus
  | e :: rest => runStimulus e { s with queue := rest }

/-- `s` with the record that `w` is a numbering of (log 6) as the next thing the driver sends. -/
def State.withFetchWord (s : State) (nbits w : Nat) : State :=
  sendRecordNext (recordOfTableWord nbits w) s

end Sys2Proof.Machine
end

