-- ==== Sys2Proof/Safety.lean ====
section
/-!
DEFINITION. The terms claims are stated in: the invariant of the state, and what the boundary accepts.
-/

namespace Sys2Proof.Machine

/-- The invariant of the state: the table of components is in its canonical form.
No other relation ties the fields together: every bit pattern of every component is legal (44_pc.md R100, 20_memory.md R34). -/
def State.Inv (s : State) : Prop := Memory.wf s.components = true

/-- A record that the boundary accepts: R55 and R56 do not refuse it, for its bits or for its binding. -/
def acceptsRecord (s : State) (bits : List Bit) (binding : Option Nat) : Bool :=
  recordWellFormed bits &&
    match (opOfRecord bits).bind kindOfOp with
    | none => true
    | some k =>
      match binding with
      | none => false
      | some n => (Memory.find s.components n).map Instance.kind == some k

/-- A combinational call (00_scope.md R12): it answers a next state, which differs from the state before only in the result
returned; no component, and nothing the driver is going to send, is touched. -/
def Answers (i : Instr) (s : State) (o : Output) : Prop :=
  exec i s = .next { s with outs := s.outs ++ [o] }

/-- A sequential call on the component named `n` (R13): it answers a next state in which `o` has been returned and `n` is
`c`; every other component, what the driver is going to send, and the binding are as before. -/
def TicksTo (i : Instr) (s : State) (n : Nat) (o : Output) (c : Instance) : Prop :=
  ∃ t, exec i s = .next t ∧ t.outs = s.outs ++ [o] ∧ t.queue = s.queue ∧ t.bound = s.bound ∧
    Memory.find t.components n = some c ∧
    ∀ m, m ≠ n → Memory.find t.components m = Memory.find s.components m

/-- The current record is bound to the name `n`, under which the component `c` stands. -/
def BoundTo (s : State) (n : Nat) (c : Instance) : Prop :=
  s.bound = some n ∧ Memory.find s.components n = some c

/-- The record of a call, bound to the name `n`. -/
def recordTo (n : Nat) (i : Instr) : Stimulus := .record (encode i) (some n)

/-- The kind of component under each name in use. -/
def kindOfName (s : State) (n : Nat) : Option Kind := (Memory.find s.components n).map Instance.kind

end Sys2Proof.Machine
end

