-- ==== Sys2Proof/Certificates/Slice0/Obligations.lean ====
section
/-!
DEFINITION. What is claimed of the model, in the words of the numbered rules of spec/.
-/

open Sys2Proof Sys2Proof.Machine

/-- The record lengths of 30_encoding.md R48, by operation number 0x00 to 0x12. -/
def tableRecordLengths : List Nat :=
  [7, 6, 7, 7, 7, 7, 37, 8, 38, 136, 7, 9, 6, 7, 22, 25, 28, 24, 21]

/-- The operation field of a record as an unsigned number, its first bit the most significant (R47, R49). -/
def leadingNumber (r : List Bit) : Nat :=
  16 * (r.getD 0 false).toNat + 8 * (r.getD 1 false).toNat + 4 * (r.getD 2 false).toNat
    + 2 * (r.getD 3 false).toNat + (r.getD 4 false).toNat

/-! ## Records -/

/-- No bit of a record is dropped: the record of every call decodes to that call, whatever its operands. -/
def Obligations.DecodingTheRecordOfACallGivesTheCall : Prop :=
  ∀ i : Instr, decode (encode i) = .ok i

/-- R57: a record that is not refused names exactly one call, and that call has no other record. -/
def Obligations.ADecodedRecordIsTheRecordOfItsCall : Prop :=
  ∀ (r : List Bit) (i : Instr), decode r = .ok i → encode i = r

/-- R54: a decoder reads the operation field, and then exactly the record's own bits from whatever follows. -/
def Obligations.ReadingFromTheFrontTakesExactlyOneRecord : Prop :=
  ∀ (i : Instr) (rest : List Bit),
    decodeFront (encode i ++ rest) = .ok (i, rest) ∧
    (encode i).length = tableRecordLengths.getD (leadingNumber (encode i)) 0

/-- R55, R56 and R57: which records are refused for their bits, and by which name. -/
def Obligations.RecordsAreRefusedExactlyForFieldOrLength : Prop :=
  ∀ r : List Bit, 5 ≤ r.length →
    (0x13 ≤ leadingNumber r → decode r = .error .reservedOp) ∧
    (leadingNumber r < 0x13 → r.length ≠ tableRecordLengths.getD (leadingNumber r) 0 →
      decode r = .error .badLength) ∧
    (leadingNumber r < 0x13 → r.length = tableRecordLengths.getD (leadingNumber r) 0 →
      ∃ i, decode r = .ok i ∧ i.op.number = leadingNumber r)

/-- The model's reading (log 7): a string with no whole operation field is of no record's length. -/
def Obligations.ARecordWithNoOperationFieldIsABadLength : Prop :=
  ∀ r : List Bit, r.length < 5 → decode r = .error .badLength

/-- Records written out bit by bit from R47 and R48 (95_test_vectors.md 2.5, L1.6, L1.8, P1, P2). -/
def Obligations.RecordsWrittenFromTheTableDecode : Prop :=
  decode [false, true, false, true, true, true, false, true, true] = .ok (.dmux8way true 0b011#3) ∧
  decode ([false, true, true, true, false] ++
    [true, false, false, false, false, false, true, false, true, false, false, false, false, true, false, true] ++
    [true]) = .ok (.register 0x8285#16 true) ∧
  decode ([false, true, true, true, true] ++
    [false, false, true, false, true, false, true, true, false, true, true, false, false, true, true, true] ++
    [true, false, false, true]) = .ok (.ram8 0x2B67#16 true 1#3) ∧
  decode ([true, false, false, false, false] ++
    [false, false, true, false, true, false, true, true, false, true, true, false, false, true, true, true] ++
    [true, false, false, true, false, false, true]) = .ok (.ram64 0x2B67#16 true 9#6) ∧
  decode ([true, false, false, false, true] ++
    [false, false, false, false, false, false, false, false, false, false, true, false, false, false, false, false] ++
    [false, false, true]) = .ok (.pc 0x0020#16 false false true)

/-- The fields of RAM8, RAM64 and PC records lie as R48 gives them, for every operand. -/
def Obligations.RamAndPcRecordsHaveTheTablesLayout : Prop :=
  (∀ (input : Word) (load : Bit) (a : Vec 3),
    decode ([false, true, true, true, true] ++ lanes input ++ [load] ++ lanes a)
      = .ok (.ram8 input load a)) ∧
  (∀ (input : Word) (load : Bit) (a : Vec 6),
    decode ([true, false, false, false, false] ++ lanes input ++ [load] ++ lanes a)
      = .ok (.ram64 input load a)) ∧
  (∀ (input : Word) (load reset inc : Bit),
    decode ([true, false, false, false, true] ++ lanes input ++ [load, reset, inc])
      = .ok (.pc input load reset inc))

/-- R49: the row of spec/opcode_table.json whose `match` is `k` is read as the operation of that number. -/
def Obligations.TableWordsNameTheirOperation : Prop :=
  ∀ k, k < 0x13 → ∃ i, decodeTableWord (tableRecordLengths.getD k 0) k = some i ∧ i.op.number = k

/-! ## The step -/

/-- When the next thing sent is a record that decodes to a call, a step is that call, with the record taken from the queue
and its binding in force. -/
def Obligations.AStepRunsTheDecodedCall : Prop :=
  ∀ (s : State) (bits : List Bit) (binding : Option Nat) (rest : List Stimulus) (i : Instr),
    s.queue = .record bits binding :: rest → decode bits = .ok i →
    step s = exec i { s with queue := rest, bound := binding }

/-- R55 and R56 at the step: a reserved or ill-sized record is refused, whatever it is bound to.
R56 gives no order between its two refusals of a record: that an ill-sized sequential record which is also bound to no
component of its kind is a `badLength` is the model's choice (DESIGN CHOICE, log 18). -/
def Obligations.AStepRefusesReservedAndIllSizedRecords : Prop :=
  ∀ (s : State) (bits : List Bit) (binding : Option Nat) (rest : List Stimulus),
    s.queue = .record bits binding :: rest → 5 ≤ bits.length →
    (0x13 ≤ leadingNumber bits → step s = .refused .reservedOp) ∧
    (leadingNumber bits < 0x13 → bits.length ≠ tableRecordLengths.getD (leadingNumber bits) 0 →
      step s = .refused .badLength)

/-- R56: a sequential call with no component bound, or one of another kind, is refused. -/
def Obligations.ASequentialCallNeedsAComponentOfItsKind : Prop :=
  ∀ (i : Instr) (k : Kind) (s : State), kindOfOp i.op = some k →
    (∀ n c, BoundTo s n c → c.kind ≠ k) → exec i s = .refused .badInstance

/-- R57: a record has a next state exactly when R55 and R56 do not refuse it. -/
def Obligations.AnAcceptedRecordAlwaysCompletes : Prop :=
  ∀ (s : State) (bits : List Bit) (binding : Option Nat) (rest : List Stimulus),
    s.queue = .record bits binding :: rest →
    ((∃ t, step s = .next t) ↔ acceptsRecord s bits binding = true)

/-- R101, R55 and R56: every step answers a next state or one of the refusals those rules name, or the driver has nothing
further to send (log 1); the last is so exactly when the queue is empty. No other stop exists. -/
def Obligations.EveryStepCompletesOrIsARefusalTheRulesName : Prop :=
  ∀ s : State,
    (step s = .refused .noStimulus ↔ s.queue = []) ∧
    ((∃ t, step s = .next t) ∨ step s = .refused .reservedOp ∨ step s = .refused .badLength ∨
      step s = .refused .badInstance ∨ step s = .refused .badOperand ∨ step s = .refused .noStimulus)

/-! ## Gates and multiplexers -/

/-- R62 to R67 and R69: encoding and truth table of each gate. -/
def Obligations.GatesReturnTheirTruthTables : Prop :=
  ∀ (s : State) (x y : Bit),
    decode [false, false, false, false, false, x, y] = .ok (.nand x y) ∧
    Answers (.nand x y) s (.bit (!(x && y))) ∧
    decode [false, false, false, false, true, x] = .ok (.not x) ∧
    Answers (.not x) s (.bit (!x)) ∧
    decode [false, false, false, true, false, x, y] = .ok (.and x y) ∧
    Answers (.and x y) s (.bit (x && y)) ∧
    decode [false, false, false, true, true, x, y] = .ok (.or x y) ∧
    Answers (.or x y) s (.bit (x || y)) ∧
    decode [false, false, true, false, false, x, y] = .ok (.nor x y) ∧
    Answers (.nor x y) s (.bit (!(x || y))) ∧
    decode [false, false, true, false, true, x, y] = .ok (.xor x y) ∧
    Answers (.xor x y) s (.bit (x != y))

/-- R68: AND16 is `and` in every lane; its record holds `a` and then `b`. -/
def Obligations.And16ActsLaneByLane : Prop :=
  ∀ (s : State) (a b : Word),
    decode ([false, false, true, true, false] ++ lanes a ++ lanes b) = .ok (.and16 a b) ∧
    Answers (.and16 a b) s (.word (a &&& b))

/-- R70: MUX returns `x` with `sel = 0` and `y` with `sel = 1`. -/
def Obligations.MuxReturnsTheSelectedSignal : Prop :=
  ∀ (s : State) (x y sel : Bit),
    decode [false, false, true, true, true, x, y, sel] = .ok (.mux x y sel) ∧
    Answers (.mux x y sel) s (.bit (if sel = true then y else x))

/-- R71: MUX16 returns the whole selected word. -/
def Obligations.Mux16ReturnsTheSelectedWord : Prop :=
  ∀ (s : State) (a b : Word) (sel : Bit),
    decode ([false, true, false, false, false] ++ lanes a ++ lanes b ++ [sel]) = .ok (.mux16 a b sel) ∧
    Answers (.mux16 a b sel) s (.word (if sel = true then b else a))

/-- R72: MUX8WAY16 returns the whole word numbered `u(sel3)`. -/
def Obligations.Mux8Way16ReturnsTheNumberedWord : Prop :=
  ∀ (s : State) (v0 v1 v2 v3 v4 v5 v6 v7 : Word) (sel3 : Vec 3),
    decode ([false, true, false, false, true] ++ lanes v0 ++ lanes v1 ++ lanes v2 ++ lanes v3
      ++ lanes v4 ++ lanes v5 ++ lanes v6 ++ lanes v7 ++ lanes sel3)
        = .ok (.mux8way16 ⟨v0, v1, v2, v3, v4, v5, v6, v7⟩ sel3) ∧
    ∃ w, [v0, v1, v2, v3, v4, v5, v6, v7][sel3.toNat]? = some w ∧
      Answers (.mux8way16 ⟨v0, v1, v2, v3, v4, v5, v6, v7⟩ sel3) s (.word w)

/-- R73: DMUX passes `input` to `a` with `sel = 0` and to `b` with `sel = 1`; the two outputs add up to `input`. -/
def Obligations.DmuxPassesItsInputToOneSide : Prop :=
  ∀ (s : State) (input sel : Bit),
    decode [false, true, false, true, false, input, sel] = .ok (.dmux input sel) ∧
    ∃ a b : Bit, Answers (.dmux input sel) s (.pair a b) ∧
      a.toNat = input.toNat * (1 - sel.toNat) ∧ b.toNat = input.toNat * sel.toNat ∧
      a.toNat + b.toNat = input.toNat

/-- R74: output `k` of DMUX8WAY is `input` where `k = u(sel3)`, and 0 otherwise. -/
def Obligations.Dmux8WayPassesItsInputToTheNumberedOutput : Prop :=
  ∀ (s : State) (input : Bit) (sel3 : Vec 3),
    decode ([false, true, false, true, true, input] ++ lanes sel3) = .ok (.dmux8way input sel3) ∧
    ∃ e : Eight Bit, Answers (.dmux8way input sel3) s (.eight e) ∧
      ∀ k, k < 8 → e.toList[k]? = some (if k = sel3.toNat then input else false)

/-- R75: at most one output of DMUX8WAY is 1, one is exactly when `input = 1`, and the outputs add up to `input`. -/
def Obligations.Dmux8WayIsOneHotOrZero : Prop :=
  ∀ (s : State) (input : Bit) (sel3 : Vec 3),
    ∃ e : Eight Bit, Answers (.dmux8way input sel3) s (.eight e) ∧
      e.toList.count true ≤ 1 ∧ (e.toList.count true = 1 ↔ input = true) ∧
      (e.toList.map Bool.toNat).sum = input.toNat

/-- R93: INC16 returns `v + 1`, wrapping at 16 bits. -/
def Obligations.Inc16AddsOneAndWraps : Prop :=
  ∀ (s : State) (v : Word),
    decode ([true, false, false, true, false] ++ lanes v) = .ok (.inc16 v) ∧
    ∃ w : Word, Answers (.inc16 v) s (.word w) ∧ w.toNat = (v.toNat + 1) % 65536

/-- R22: the combinational operations are pure and stateless: what one returns is fixed by its operands, in every state and
whatever is bound, and it touches nothing. -/
def Obligations.CombinationalCallsArePureAndTouchNothing : Prop :=
  ∀ i : Instr, kindOfOp i.op = none → ∃ o, ∀ s : State, Answers i s o

/-! ## Storage -/

/-- R77: a DFF returns its stored bit and stores its input. -/
def Obligations.DffReturnsTheOldBitAndStoresTheInput : Prop :=
  ∀ (s : State) (n : Nat) (q input : Bit), BoundTo s n (.dff q) →
    decode [false, true, true, false, false, input] = .ok (.dff input) ∧
    TicksTo (.dff input) s n (.bit q) (.dff input)

/-- R79 and R80: a BIT is constructed with 0; it returns its stored bit, and takes `input` only with `load = 1`. -/
def Obligations.BitReturnsTheOldBitAndLoadsWhenTold : Prop :=
  ∀ (s : State) (n : Nat) (q input load : Bit), BoundTo s n (.bit q) →
    Construction.bit.fresh = .bit false ∧
    decode [false, true, true, false, true, input, load] = .ok (.bit input load) ∧
    TicksTo (.bit input load) s n (.bit q) (.bit (if load = true then input else q))

/-- R81: sixteen bit cells with one load are one word, zero at construction, replaced whole or kept whole. -/
def Obligations.RegisterReturnsTheOldWordAndLoadsWhenTold : Prop :=
  ∀ (s : State) (n : Nat) (q input : Word) (load : Bit), BoundTo s n (.register q) →
    Construction.register.fresh = .register 0#16 ∧
    decode ([false, true, true, true, false] ++ lanes input ++ [load]) = .ok (.register input load) ∧
    TicksTo (.register input load) s n (.word q) (.register (if load = true then input else q))

/-- R78: fed any sequence of inputs, a DFF that holds `s0` returns `s0` and then each input one tick late. -/
def Obligations.ADffDelaysEverySequenceByOneTick : Prop :=
  ∀ (vs : List Bit) (s : State) (n : Nat) (s0 : Bit),
    Memory.find s.components n = some (.dff s0) →
    s.queue = vs.map (fun v => recordTo n (.dff v)) →
    ∃ t, core.run vs.length s = .next t ∧
      t.outs = s.outs ++ ((s0 :: vs).take vs.length).map Output.bit ∧
      Memory.find t.components n = some (.dff (vs.getLastD s0))

/-- R83: a call with `load = 0` never changes a register; a load followed by a read returns the loaded word on the second
call and the old word on the first. -/
def Obligations.ARegisterReadReturnsWhatWasLoaded : Prop :=
  ∀ (s : State) (n : Nat) (q v w : Word), BoundTo s n (.register q) →
    (∃ t, exec (.register v false) s = .next t ∧ t.outs = s.outs ++ [.word q] ∧
      Memory.find t.components n = some (.register q)) ∧
    (∃ t t', exec (.register v true) s = .next t ∧ exec (.register w false) t = .next t' ∧
      t'.outs = s.outs ++ [.word q, .word v])

/-! ## RAM -/

/-- R86: the tier of eight registers is an array of eight words. -/
def Obligations.Ram8IsAnArrayOfEightWords : Prop :=
  ∀ (s : State) (n : Nat) (m : Eight Word) (input : Word) (load : Bit) (a : Vec 3),
    BoundTo s n (.ram8 m) →
    (∃ (w : Word) (m' : Eight Word), (ram8Words m)[a.toNat]? = some w ∧
      TicksTo (.ram8 input load a) s n (.word w) (.ram8 m') ∧
      ram8Words m' = if load = true then (ram8Words m).set a.toNat input else ram8Words m) ∧
    (ram8Words m).length = 8

/-- R88: the two tiers of a RAM64 are one array of 64 words; word `l` of child `h` is word `8·h + l`, and the address
splits so. -/
def Obligations.Ram64IsAnArrayOfSixtyFourWords : Prop :=
  ∀ (s : State) (n : Nat) (m : Eight (Eight Word)) (input : Word) (load : Bit) (a : Vec 6),
    BoundTo s n (.ram64 m) →
    (∃ (w : Word) (m' : Eight (Eight Word)), (ram64Words m)[a.toNat]? = some w ∧
      TicksTo (.ram64 input load a) s n (.word w) (.ram64 m') ∧
      ram64Words m' = if load = true then (ram64Words m).set a.toNat input else ram64Words m) ∧
    a.toNat = 8 * (highOf a).toNat + (lowOf a).toNat ∧
    (ram64Words m).length = 64 ∧
    ∀ h l, h < 8 → l < 8 → (ram64Words m)[8 * h + l]? = (m.toList[h]?).bind (fun c => c.toList[l]?)

/-- The frame of a RAM call: no word but the addressed one changes, and none at all with `load = 0`. -/
def Obligations.ARamCallStoresOnlyAtItsAddress : Prop :=
  (∀ (s t : State) (n : Nat) (m : Eight Word) (input : Word) (load : Bit) (a : Vec 3),
    BoundTo s n (.ram8 m) → exec (.ram8 input load a) s = .next t →
    ∃ m', Memory.find t.components n = some (.ram8 m') ∧
      ∀ k, (load = false ∨ k ≠ a.toNat) → (ram8Words m')[k]? = (ram8Words m)[k]?) ∧
  (∀ (s t : State) (n : Nat) (m : Eight (Eight Word)) (input : Word) (load : Bit) (a : Vec 6),
    BoundTo s n (.ram64 m) → exec (.ram64 input load a) s = .next t →
    ∃ m', Memory.find t.components n = some (.ram64 m') ∧
      ∀ k, (load = false ∨ k ≠ a.toNat) → (ram64Words m')[k]? = (ram64Words m)[k]?)

/-- R92: after a write at `a`, a read at `b ≠ a` returns what `b` held, and a read at `a` returns the word written. -/
def Obligations.ARamReadReturnsTheLastWriteAtItsAddress : Prop :=
  (∀ (s : State) (n : Nat) (m : Eight Word) (v w : Word) (a b : Vec 3), BoundTo s n (.ram8 m) →
    ∃ (old : Word) (t t' : State), (ram8Words m)[b.toNat]? = some old ∧
      exec (.ram8 v true a) s = .next t ∧ exec (.ram8 w false b) t = .next t' ∧
      t'.outs = t.outs ++ [.word (if b = a then v else old)]) ∧
  (∀ (s : State) (n : Nat) (m : Eight (Eight Word)) (v w : Word) (a b : Vec 6), BoundTo s n (.ram64 m) →
    ∃ (old : Word) (t t' : State), (ram64Words m)[b.toNat]? = some old ∧
      exec (.ram64 v true a) s = .next t ∧ exec (.ram64 w false b) t = .next t' ∧
      t'.outs = t.outs ++ [.word (if b = a then v else old)])

/-- R89: the load of leaf register `h` of a RAM8 is enabled exactly when `load = 1` and `h` is the address; that of leaf `l`
of child `h` of a RAM64, demultiplexed through both tiers, exactly when `load = 1` and `8·h + l` is the address. -/
def Obligations.ExactlyTheAddressedLeafHasItsLoadEnabled : Prop :=
  (∀ (load : Bit) (a : Vec 3) (h : Nat), h < 8 →
    ∃ leafLoad : Bit, (dmux8wayGate load a).toList[h]? = some leafLoad ∧
      (leafLoad = true ↔ load = true ∧ h = a.toNat)) ∧
  (∀ (load : Bit) (a : Vec 6) (h l : Nat), h < 8 → l < 8 →
    ∃ tierLoad leafLoad : Bit,
      (dmux8wayGate load (highOf a)).toList[h]? = some tierLoad ∧
      (dmux8wayGate tierLoad (lowOf a)).toList[l]? = some leafLoad ∧
      (leafLoad = true ↔ load = true ∧ 8 * h + l = a.toNat))

/-! ## Program counter -/

/-- R96: the PC returns the old word, and commits `input` or zero only with `load = 1`. -/
def Obligations.PcCommitsInputOrZeroOnlyWithLoad : Prop :=
  ∀ (s : State) (n : Nat) (p input : Word) (load reset inc : Bit), BoundTo s n (.pc p) →
    TicksTo (.pc input load reset inc) s n (.word p)
      (.pc (if load = true then (if reset = true then 0#16 else input) else p))

/-- R97 (a): `inc` affects no output and no state. -/
def Obligations.PcIncHasNoEffect : Prop :=
  ∀ (s : State) (input : Word) (load reset : Bit),
    exec (.pc input load reset true) s = exec (.pc input load reset false) s

/-- R98: what the call after a PC call returns, in each case the rule names. -/
def Obligations.PcNextOutputFollowsTheLoadGatedLaw : Prop :=
  ∀ (s : State) (n : Nat) (p input other : Word) (reset inc load' reset' inc' : Bit),
    BoundTo s n (.pc p) →
    (∃ t t', exec (.pc input true true inc) s = .next t ∧
      exec (.pc other load' reset' inc') t = .next t' ∧ t'.outs = s.outs ++ [.word p, .word 0#16]) ∧
    (∃ t t', exec (.pc input true false inc) s = .next t ∧
      exec (.pc other load' reset' inc') t = .next t' ∧ t'.outs = s.outs ++ [.word p, .word input]) ∧
    (∃ t t', exec (.pc input false reset inc) s = .next t ∧
      exec (.pc other load' reset' inc') t = .next t' ∧ t'.outs = s.outs ++ [.word p, .word p])

/-! ## All sequential components -/

/-- R37: with `load = 0` a BIT, REGISTER, RAM8, RAM64 or PC call changes no component. -/
def Obligations.CallsWithLoadZeroChangeNoComponent : Prop :=
  ∀ (s t : State) (i : Instr),
    ((∃ x, i = .bit x false) ∨ (∃ w, i = .register w false) ∨ (∃ w a, i = .ram8 w false a) ∨
      (∃ w a, i = .ram64 w false a) ∨ (∃ w r c, i = .pc w false r c)) →
    exec i s = .next t → ∀ k, Memory.find t.components k = Memory.find s.components k

/-- R25 and R109: a sequential call writes no state but that of the component it is bound to, keeps its kind, and returns
one result. -/
def Obligations.ASequentialCallWritesOnlyItsOwnComponent : Prop :=
  ∀ (i : Instr) (k : Kind) (s t : State), kindOfOp i.op = some k → exec i s = .next t →
    ∃ n c c' o, BoundTo s n c ∧ c.kind = k ∧ c'.kind = k ∧
      Memory.find t.components n = some c' ∧
      (∀ m, m ≠ n → Memory.find t.components m = Memory.find s.components m) ∧
      t.queue = s.queue ∧ t.bound = s.bound ∧ t.outs = s.outs ++ [o]

/-- Isolation (R3, R109): what a sequential call returns and stores depends on nothing but its operands and its own
component. -/
def Obligations.ASequentialCallDependsOnlyOnItsOwnComponent : Prop :=
  ∀ (i : Instr) (s₁ s₂ t₁ : State) (n : Nat) (c : Instance),
    BoundTo s₁ n c → BoundTo s₂ n c → exec i s₁ = .next t₁ →
    ∃ t₂ o, exec i s₂ = .next t₂ ∧ t₁.outs = s₁.outs ++ [o] ∧ t₂.outs = s₂.outs ++ [o] ∧
      Memory.find t₁.components n = Memory.find t₂.components n

/-- R40 and R109: calls on two different components may be made in either order: each returns the same, and every
component ends the same. -/
def Obligations.CallsOnDifferentComponentsCommute : Prop :=
  ∀ (i j : Instr) (s t₁ t₂ : State) (n m : Nat), n ≠ m →
    exec i { s with bound := some n } = .next t₁ →
    exec j { t₁ with bound := some m } = .next t₂ →
    ∃ u₁ u₂ oi oj, exec j { s with bound := some m } = .next u₁ ∧
      exec i { u₁ with bound := some n } = .next u₂ ∧
      t₂.outs = s.outs ++ [oi, oj] ∧ u₂.outs = s.outs ++ [oj, oi] ∧
      ∀ k, Memory.find u₂.components k = Memory.find t₂.components k

/-- R30: what the driver's construct call leaves under the name, and that it changes nothing else and returns nothing.
Under a name in use, that the fresh component takes the old one's place is the model's choice (log 9). -/
def Obligations.ConstructingGivesTheInitialState : Prop :=
  ∀ (s : State) (n : Nat) (c : Construction) (rest : List Stimulus), s.queue = .construct n c :: rest →
    ∃ t, step s = .next t ∧ t.queue = rest ∧ t.outs = s.outs ∧ t.bound = s.bound ∧
      (∀ k, k ≠ n → Memory.find t.components k = Memory.find s.components k) ∧
      (∀ init, c = .dff init → Memory.find t.components n = some (.dff init)) ∧
      (c = .bit → Memory.find t.components n = some (.bit false)) ∧
      (c = .register → Memory.find t.components n = some (.register 0#16)) ∧
      (c = .ram8 → ∃ m, Memory.find t.components n = some (.ram8 m) ∧
        ram8Words m = List.replicate 8 0#16) ∧
      (c = .ram64 → ∃ m, Memory.find t.components n = some (.ram64 m) ∧
        ram64Words m = List.replicate 64 0#16) ∧
      (c = .pc → Memory.find t.components n = some (.pc 0#16))

/-- R119: the first call on a fresh component returns its initial content (under a name in use: log 9). -/
def Obligations.TheFirstCallReturnsTheInitialContent : Prop :=
  ∀ (s : State) (n : Nat) (c : Construction) (i : Instr) (rest : List Stimulus),
    kindOfOp i.op = some c.fresh.kind → s.queue = .construct n c :: recordTo n i :: rest →
    ∃ t o, core.run 2 s = .next t ∧ t.outs = s.outs ++ [o] ∧
      (∀ init, c = .dff init → o = .bit init) ∧
      (c = .bit → o = .bit false) ∧
      (c = .register ∨ c = .ram8 ∨ c = .ram64 ∨ c = .pc → o = .word 0#16)

/-- R117 for DFF, BIT, REGISTER and PC: the one call that brings each back to its initial content. -/
def Obligations.OneCallRestoresACellARegisterOrThePc : Prop :=
  ∀ (s : State) (n : Nat),
    (∀ q init, BoundTo s n (.dff q) → TicksTo (.dff init) s n (.bit q) (.dff init)) ∧
    (∀ q, BoundTo s n (.bit q) → TicksTo (.bit false true) s n (.bit q) (.bit false)) ∧
    (∀ q, BoundTo s n (.register q) → TicksTo (.register 0#16 true) s n (.word q) (.register 0#16)) ∧
    (∀ p, BoundTo s n (.pc p) → TicksTo (.pc 0#16 true true false) s n (.word p) (.pc 0#16))

/-- R117 for the RAMs: one write of zero to each address, 8 or 64 calls, gives the initial content; each call returns the
content held before. -/
def Obligations.WritingEveryAddressRestoresARam : Prop :=
  (∀ (s : State) (n : Nat) (m : Eight Word) (rest : List Stimulus),
    Memory.find s.components n = some (.ram8 m) →
    s.queue = (List.range 8).map (fun k => recordTo n (.ram8 0#16 true (BitVec.ofNat 3 k))) ++ rest →
    ∃ t m', core.run 8 s = .next t ∧ t.queue = rest ∧ Memory.find t.components n = some (.ram8 m') ∧
      ram8Words m' = List.replicate 8 0#16 ∧ t.outs = s.outs ++ (ram8Words m).map Output.word) ∧
  (∀ (s : State) (n : Nat) (m : Eight (Eight Word)) (rest : List Stimulus),
    Memory.find s.components n = some (.ram64 m) →
    s.queue = (List.range 64).map (fun k => recordTo n (.ram64 0#16 true (BitVec.ofNat 6 k))) ++ rest →
    ∃ t m', core.run 64 s = .next t ∧ t.queue = rest ∧ Memory.find t.components n = some (.ram64 m') ∧
      ram64Words m' = List.replicate 64 0#16 ∧ t.outs = s.outs ++ (ram64Words m).map Output.word)

/-- R122: a driver that passes A's result into B passes what A held before the call. -/
def Obligations.ForwardingPassesTheContentBeforeTheCall : Prop :=
  ∀ (s : State) (a b : Nat) (qa qb v : Word) (rest : List Stimulus), a ≠ b →
    Memory.find s.components a = some (.register qa) → Memory.find s.components b = some (.register qb) →
    s.queue = recordTo a (.register v true) ::
      .call (.exec b [(.input, .returned), (.load, .dec 1)]) :: rest →
    ∃ t, core.run 2 s = .next t ∧ t.queue = rest ∧ t.outs = s.outs ++ [.word qa, .word qb] ∧
      Memory.find t.components a = some (.register v) ∧ Memory.find t.components b = some (.register qa)

/-! ## Script lines -/

/-- R58 and R10: a word written as a signed decimal is its two's complement, and is refused out of range. -/
def Obligations.SignedDecimalWordsAreTwosComplement : Prop :=
  ∀ (last : Option Output) (d : Int),
    (-32768 ≤ d → d ≤ 32767 →
      ∃ w : Word, Value.toWord last (.dec d) = .ok w ∧ (w.toNat : Int) = d % 65536) ∧
    (d < -32768 ∨ 32767 < d → Value.toWord last (.dec d) = .error .badOperand)

/-- R48 and R58: a line that gives each field of its operation once, by its name in R48's table, assembles to the call with
those operands. That the fields may come in any order is the model's choice (log 11). -/
def Obligations.ALineOfTheTablesFieldsAssemblesToItsCall : Prop :=
  ∀ (last : Option Output) (fs : List (Field × Value)),
    (∀ vx x, Value.toBit last vx = .ok x → fs.Perm [(.x, vx)] → assemble last .not fs = .ok (.not x)) ∧
    (∀ vx vy x y, Value.toBit last vx = .ok x → Value.toBit last vy = .ok y →
      fs.Perm [(.x, vx), (.y, vy)] →
      assemble last .nand fs = .ok (.nand x y) ∧ assemble last .and fs = .ok (.and x y) ∧
      assemble last .or fs = .ok (.or x y) ∧ assemble last .nor fs = .ok (.nor x y) ∧
      assemble last .xor fs = .ok (.xor x y)) ∧
    (∀ va vb a b, Value.toWord last va = .ok a → Value.toWord last vb = .ok b →
      fs.Perm [(.a, va), (.b, vb)] → assemble last .and16 fs = .ok (.and16 a b)) ∧
    (∀ vx vy vs x y sel, Value.toBit last vx = .ok x → Value.toBit last vy = .ok y →
      Value.toBit last vs = .ok sel → fs.Perm [(.x, vx), (.y, vy), (.sel, vs)] →
      assemble last .mux fs = .ok (.mux x y sel)) ∧
    (∀ va vb vs a b sel, Value.toWord last va = .ok a → Value.toWord last vb = .ok b →
      Value.toBit last vs = .ok sel → fs.Perm [(.a, va), (.b, vb), (.sel, vs)] →
      assemble last .mux16 fs = .ok (.mux16 a b sel)) ∧
    (∀ (e : Eight Value) vs (w : Eight Word) sel3,
      Value.toWord last e.v0 = .ok w.v0 → Value.toWord last e.v1 = .ok w.v1 →
      Value.toWord last e.v2 = .ok w.v2 → Value.toWord last e.v3 = .ok w.v3 →
      Value.toWord last e.v4 = .ok w.v4 → Value.toWord last e.v5 = .ok w.v5 →
      Value.toWord last e.v6 = .ok w.v6 → Value.toWord last e.v7 = .ok w.v7 →
      Value.toVec 3 vs = .ok sel3 →
      fs.Perm [(.v0, e.v0), (.v1, e.v1), (.v2, e.v2), (.v3, e.v3), (.v4, e.v4), (.v5, e.v5), (.v6, e.v6),
        (.v7, e.v7), (.sel3, vs)] →
      assemble last .mux8way16 fs = .ok (.mux8way16 w sel3)) ∧
    (∀ vi vs input sel, Value.toBit last vi = .ok input → Value.toBit last vs = .ok sel →
      fs.Perm [(.input, vi), (.sel, vs)] → assemble last .dmux fs = .ok (.dmux input sel)) ∧
    (∀ vi vs input sel3, Value.toBit last vi = .ok input → Value.toVec 3 vs = .ok sel3 →
      fs.Perm [(.input, vi), (.sel3, vs)] → assemble last .dmux8way fs = .ok (.dmux8way input sel3)) ∧
    (∀ vi input, Value.toBit last vi = .ok input → fs.Perm [(.input, vi)] →
      assemble last .dff fs = .ok (.dff input)) ∧
    (∀ vi vl input load, Value.toBit last vi = .ok input → Value.toBit last vl = .ok load →
      fs.Perm [(.input, vi), (.load, vl)] → assemble last .bit fs = .ok (.bit input load)) ∧
    (∀ vi vl input load, Value.toWord last vi = .ok input → Value.toBit last vl = .ok load →
      fs.Perm [(.input, vi), (.load, vl)] → assemble last .register fs = .ok (.register input load)) ∧
    (∀ vi vl va input load a, Value.toWord last vi = .ok input → Value.toBit last vl = .ok load →
      Value.toVec 3 va = .ok a → fs.Perm [(.input, vi), (.load, vl), (.address, va)] →
      assemble last .ram8 fs = .ok (.ram8 input load a)) ∧
    (∀ vi vl va input load a, Value.toWord last vi = .ok input → Value.toBit last vl = .ok load →
      Value.toVec 6 va = .ok a → fs.Perm [(.input, vi), (.load, vl), (.address, va)] →
      assemble last .ram64 fs = .ok (.ram64 input load a)) ∧
    (∀ vi vl vr vn input load reset inc, Value.toWord last vi = .ok input →
      Value.toBit last vl = .ok load → Value.toBit last vr = .ok reset → Value.toBit last vn = .ok inc →
      fs.Perm [(.input, vi), (.load, vl), (.reset, vr), (.inc, vn)] →
      assemble last .pc fs = .ok (.pc input load reset inc)) ∧
    (∀ vv v, Value.toWord last vv = .ok v → fs.Perm [(.v, vv)] → assemble last .inc16 fs = .ok (.inc16 v))

/-- R58: a line of a bare operation, or of `<name>.exec`, makes the call that `assemble` reads from its fields, the second on
the component named.
R58 has no bare line of a sequential operation: that one runs bound to none is the model's choice (log 11), and so is an
operand written `returned` (log 12). Which call the fields give is stated by `ALineOfTheTablesFieldsAssemblesToItsCall`. -/
def Obligations.AScriptLineRunsTheCallItAssembles : Prop :=
  ∀ (s : State) (rest : List Stimulus) (fields : List (Field × Value)) (i : Instr),
    (∀ op, s.queue = .call (.op op fields) :: rest → assemble s.lastOut op fields = .ok i →
      step s = exec i { s with queue := rest, bound := none }) ∧
    (∀ n c, s.queue = .call (.exec n fields) :: rest → Memory.find s.components n = some c →
      assemble s.lastOut c.kind.op fields = .ok i →
      step s = exec i { s with queue := rest, bound := some n })

/-- R58: `init=` sets `dff_init` of a DFF, 0 where it is left out, and is refused for every other kind.
By which name it is refused is the model's choice (log 11), and so is that a line on a name in use puts the fresh component in
the place of the one there (log 9). -/
def Obligations.ANewLineConstructsWithTheGivenInit : Prop :=
  ∀ (s : State) (n : Nat) (rest : List Stimulus) (k : Kind) (v : Value) (z : Bit),
    (s.queue = .call (.new .dff n none) :: rest →
      ∃ t, step s = .next t ∧ Memory.find t.components n = some (.dff false)) ∧
    (s.queue = .call (.new .dff n (some v)) :: rest → Value.toBit s.lastOut v = .ok z →
      ∃ t, step s = .next t ∧ Memory.find t.components n = some (.dff z)) ∧
    (k ≠ .dff → s.queue = .call (.new k n none) :: rest →
      ∃ t, step s = .next t ∧ kindOfName t n = some k) ∧
    (k ≠ .dff → s.queue = .call (.new k n (some v)) :: rest → step s = .refused .badOperand)

/-- R59: each pseudo-operation but PCSTEP is one `exec` of its component, with the fields the rule gives. -/
def Obligations.PseudoOperationsAreTheCallsTheyExpandTo : Prop :=
  ∀ (s : State) (n : Nat) (rest : List Stimulus) (v k : Value) (w : Word) (z : Bit),
    let after : State := { s with queue := rest, bound := some n }
    (∀ q, Memory.find s.components n = some (.bit q) →
      (s.queue = .pseudo (.set n v) :: rest → Value.toBit s.lastOut v = .ok z →
        step s = exec (.bit z true) after) ∧
      (s.queue = .pseudo (.hold n) :: rest → step s = exec (.bit false false) after)) ∧
    (∀ q, Memory.find s.components n = some (.register q) →
      (s.queue = .pseudo (.set n v) :: rest → Value.toWord s.lastOut v = .ok w →
        step s = exec (.register w true) after) ∧
      (s.queue = .pseudo (.hold n) :: rest → step s = exec (.register 0#16 false) after)) ∧
    (∀ m a, Memory.find s.components n = some (.ram8 m) → Value.toVec 3 k = .ok a →
      (s.queue = .pseudo (.write n k v) :: rest → Value.toWord s.lastOut v = .ok w →
        step s = exec (.ram8 w true a) after) ∧
      (s.queue = .pseudo (.read n k) :: rest → step s = exec (.ram8 0#16 false a) after)) ∧
    (∀ m a, Memory.find s.components n = some (.ram64 m) → Value.toVec 6 k = .ok a →
      (s.queue = .pseudo (.write n k v) :: rest → Value.toWord s.lastOut v = .ok w →
        step s = exec (.ram64 w true a) after) ∧
      (s.queue = .pseudo (.read n k) :: rest → step s = exec (.ram64 0#16 false a) after)) ∧
    (∀ p, Memory.find s.components n = some (.pc p) →
      (s.queue = .pseudo (.pcLoad n v) :: rest → Value.toWord s.lastOut v = .ok w →
        step s = exec (.pc w true false false) after) ∧
      (s.queue = .pseudo (.pcReset n) :: rest → step s = exec (.pc 0#16 true true false) after) ∧
      (s.queue = .pseudo (.pcRead n) :: rest → step s = exec (.pc 0#16 false false false) after))

/-- R59 and R100: PCSTEP advances the PC by one, wrapping; both of its ticks return the old word, and between them the
driver's INC16 call returns the incremented one (log 12). -/
def Obligations.PcStepAdvancesThePcByOne : Prop :=
  ∀ (s : State) (n : Nat) (o : Word) (rest : List Stimulus),
    Memory.find s.components n = some (.pc o) → s.queue = .pseudo (.pcStep n) :: rest →
    ∃ t, core.run 3 s = .next t ∧ t.queue = rest ∧
      t.outs = s.outs ++ [.word o, .word (o + 1#16), .word o] ∧
      Memory.find t.components n = some (.pc (o + 1#16)) ∧
      ∀ m, m ≠ n → Memory.find t.components m = Memory.find s.components m

/-- R56 and R58: an address outside the range of its field is refused before anything is read or written. -/
def Obligations.AnAddressOutOfRangeIsABadOperand : Prop :=
  ∀ (s : State) (n : Nat) (v : Value) (w : Word) (d : Int) (rest : List Stimulus),
    Value.toWord s.lastOut v = .ok w →
    s.queue = .call (.exec n [(.input, v), (.load, .dec 1), (.address, .dec d)]) :: rest →
    (∀ m, Memory.find s.components n = some (.ram8 m) → (d < 0 ∨ 7 < d) → step s = .refused .badOperand) ∧
    (∀ m, Memory.find s.components n = some (.ram64 m) → (d < 0 ∨ 63 < d) → step s = .refused .badOperand) ∧
    (∀ m, Memory.find s.components n = some (.ram64 m) → 0 ≤ d → d ≤ 63 →
      step s = exec (.ram64 w true (BitVec.ofNat 6 d.toNat)) { s with queue := rest, bound := some n })

/-- R61: a word's result is its 16 lanes, lane 0 first; DMUX gives `a` then `b`, DMUX8WAY `s0` first. -/
def Obligations.ResultsAreWrittenLaneZeroFirst : Prop :=
  (∀ w : Word, (Output.word w).bits.length = 16 ∧
    ∀ k, k < 16 → (Output.word w).bits[k]? = some (w.toNat.testBit (15 - k))) ∧
  (∀ z : Bit, (Output.bit z).bits = [z]) ∧
  (∀ a b : Bit, (Output.pair a b).bits = [a, b]) ∧
  (∀ e : Eight Bit, (Output.eight e).bits = [e.v0, e.v1, e.v2, e.v3, e.v4, e.v5, e.v6, e.v7])

/-! ## The whole machine -/

/-- The table of components is in its canonical form at reset. -/
def Obligations.TheStateAtResetIsCanonical : Prop := State.reset.Inv

/-- Every step keeps the table of components in its canonical form. -/
def Obligations.EveryStepKeepsTheComponentTableCanonical : Prop :=
  ∀ s t : State, s.Inv → step s = .next t → t.Inv

/-- Canonical tables that hold the same components are the same data. -/
def Obligations.CanonicalTablesThatReadAlikeAreEqual : Prop :=
  ∀ m m' : Memory, m.wf = true → m'.wf = true →
    (∀ n, Memory.find m n = Memory.find m' n) → m = m'

/-- R110: only a construct call, a discard or a `new` line changes which components exist or their kinds. -/
def Obligations.OnlyTheDriverChangesWhichComponentsExist : Prop :=
  ∀ (s t : State) (e : Stimulus) (rest : List Stimulus), s.queue = e :: rest → step s = .next t →
    (∀ n c, e ≠ .construct n c) → (∀ n, e ≠ .discard n) → (∀ k n v, e ≠ .call (.new k n v)) →
    ∀ n, kindOfName t n = kindOfName s n

/-- R110: every call returns exactly one result to the driver; constructing and discarding return nothing. -/
def Obligations.EveryCallReturnsExactlyOneResult : Prop :=
  ∀ (s t : State) (e : Stimulus) (rest : List Stimulus), s.queue = e :: rest → step s = .next t →
    ((∃ n c, e = .construct n c) ∨ (∃ n, e = .discard n) ∨ (∃ k n v, e = .call (.new k n v)) →
      t.outs = s.outs) ∧
    ((∀ n c, e ≠ .construct n c) → (∀ n, e ≠ .discard n) → (∀ k n v, e ≠ .call (.new k n v)) →
      ∃ o, t.outs = s.outs ++ [o])

/-- R110 and R116: discarding removes the component and nothing else (for a name not in use, the model's choice: log 10). -/
def Obligations.DiscardingRemovesOnlyTheNamedComponent : Prop :=
  ∀ (s : State) (n : Nat) (rest : List Stimulus), s.queue = .discard n :: rest →
    ∃ t, step s = .next t ∧ t.queue = rest ∧ t.outs = s.outs ∧ t.bound = s.bound ∧
      Memory.find t.components n = none ∧
      ∀ m, m ≠ n → Memory.find t.components m = Memory.find s.components m
end

