-- ==== Sys2Proof/Laws/Memory.lean ====
section
/-!
SUPPORT. The table of components: read after write, frames, and that every operation keeps the canonical form.
-/

namespace Sys2Proof.Machine

@[simp] theorem find_put_same (m : Memory) (n : Nat) (c : Instance) : Memory.find (Memory.put m n c) n = some c := by
  induction m with
  | nil => simp [Memory.put, Memory.find]
  | cons p rest ih =>
    obtain ⟨k, d⟩ := p
    by_cases hk : k = n
    · simp [Memory.put, Memory.find, hk]
    · by_cases hlt : n < k
      · simp [Memory.put, Memory.find, hk, hlt]
      · simp [Memory.put, Memory.find, hk, hlt, ih]

theorem find_put_other (m : Memory) {n k : Nat} (c : Instance) (h : k ≠ n) :
    Memory.find (Memory.put m n c) k = Memory.find m k := by
  induction m with
  | nil => simp [Memory.put, Memory.find, h.symm]
  | cons p rest ih =>
    obtain ⟨l, d⟩ := p
    by_cases hl : l = n
    · subst hl
      simp [Memory.put, Memory.find, h.symm]
    · by_cases hlt : n < l
      · simp [Memory.put, Memory.find, hl, hlt, h.symm]
      · simp [Memory.put, Memory.find, hl, hlt, ih]

@[simp] theorem find_erase_same (m : Memory) (n : Nat) : Memory.find (Memory.erase m n) n = none := by
  induction m with
  | nil => rfl
  | cons p rest ih =>
    obtain ⟨k, d⟩ := p
    by_cases hk : k = n
    · simp [Memory.erase, hk, ih]
    · simp [Memory.erase, Memory.find, hk, ih]

theorem find_erase_other (m : Memory) {n k : Nat} (h : k ≠ n) :
    Memory.find (Memory.erase m n) k = Memory.find m k := by
  induction m with
  | nil => rfl
  | cons p rest ih =>
    obtain ⟨l, d⟩ := p
    by_cases hl : l = n
    · subst hl
      simp [Memory.erase, Memory.find, h.symm, ih]
    · simp [Memory.erase, Memory.find, hl, ih]

/-- Every name of the table is above `k`. -/
abbrev Above (k : Nat) (m : Memory) : Prop := ∀ p ∈ m, k < p.1

/-- The canonical form, one name at a time. -/
theorem wf_cons (k : Nat) (c : Instance) (m : Memory) :
    Memory.wf ((k, c) :: m) = true ↔ Above k m ∧ Memory.wf m = true := by
  induction m generalizing k c with
  | nil => simp [Memory.wf]
  | cons p rest ih =>
    obtain ⟨l, d⟩ := p
    simp only [Memory.wf, Bool.and_eq_true, decide_eq_true_eq, ih l d, Above, List.forall_mem_cons]
    constructor
    · rintro ⟨hkl, hr, hw⟩
      exact ⟨⟨hkl, fun p hp => hkl.trans (hr p hp)⟩, hr, hw⟩
    · rintro ⟨⟨hkl, _⟩, hr, hw⟩
      exact ⟨hkl, hr, hw⟩

theorem above_put {k n : Nat} {m : Memory} (c : Instance) (hn : k < n) (h : Above k m) :
    Above k (Memory.put m n c) := by
  induction m with
  | nil => exact List.forall_mem_cons.mpr ⟨hn, by simp⟩
  | cons p rest ih =>
    obtain ⟨l, d⟩ := p
    simp only [Above, List.forall_mem_cons] at h
    unfold Memory.put
    split
    · exact List.forall_mem_cons.mpr ⟨hn, h.2⟩
    · split
      · exact List.forall_mem_cons.mpr ⟨hn, List.forall_mem_cons.mpr h⟩
      · exact List.forall_mem_cons.mpr ⟨h.1, ih h.2⟩

theorem above_erase {k n : Nat} {m : Memory} (h : Above k m) : Above k (Memory.erase m n) := by
  induction m with
  | nil => exact h
  | cons p rest ih =>
    obtain ⟨l, d⟩ := p
    simp only [Above, List.forall_mem_cons] at h
    unfold Memory.erase
    split
    · exact ih h.2
    · exact List.forall_mem_cons.mpr ⟨h.1, ih h.2⟩

theorem wf_put (m : Memory) (n : Nat) (c : Instance) (h : Memory.wf m = true) :
    Memory.wf (Memory.put m n c) = true := by
  induction m with
  | nil => rfl
  | cons p rest ih =>
    obtain ⟨k, d⟩ := p
    obtain ⟨ha, hw⟩ := (wf_cons k d rest).mp h
    unfold Memory.put
    split
    · next hk => exact (wf_cons n c rest).mpr ⟨hk ▸ ha, hw⟩
    · next hk =>
      split
      · next hlt =>
        exact (wf_cons n c _).mpr ⟨List.forall_mem_cons.mpr ⟨hlt, fun p hp => hlt.trans (ha p hp)⟩, h⟩
      · exact (wf_cons k d _).mpr ⟨above_put c (by omega) ha, ih hw⟩

theorem wf_erase (m : Memory) (n : Nat) (h : Memory.wf m = true) : Memory.wf (Memory.erase m n) = true := by
  induction m with
  | nil => rfl
  | cons p rest ih =>
    obtain ⟨k, d⟩ := p
    obtain ⟨ha, hw⟩ := (wf_cons k d rest).mp h
    unfold Memory.erase
    split
    · exact ih hw
    · exact (wf_cons k d _).mpr ⟨above_erase ha, ih hw⟩

/-- Where every name is above `n`, nothing stands under `n`. -/
theorem find_of_above {n : Nat} {m : Memory} (h : Above n m) : Memory.find m n = none := by
  induction m with
  | nil => rfl
  | cons p rest ih =>
    obtain ⟨k, d⟩ := p
    simp only [Above, List.forall_mem_cons] at h
    simp [Memory.find, show k ≠ n from Nat.ne_of_gt h.1, ih h.2]

end Sys2Proof.Machine
end

