-- ==== Sys2Proof/Laws/State.lean ====
section
/-!
SUPPORT. What each update of State leaves in each field, so that no proof unfolds a record update.
-/

namespace Sys2Proof.Machine

variable (s : State) (o : Output) (m : Memory) (q : List Stimulus) (b : Option Nat)

@[simp] theorem returns_components : (s.returns o).components = s.components := rfl
@[simp] theorem returns_queue : (s.returns o).queue = s.queue := rfl
@[simp] theorem returns_bound : (s.returns o).bound = s.bound := rfl
@[simp] theorem returns_outs : (s.returns o).outs = s.outs ++ [o] := rfl
@[simp] theorem lastOut_returns : (s.returns o).lastOut = some o := by simp [State.lastOut]

@[simp] theorem withComponents_components : ({ s with components := m } : State).components = m := rfl
@[simp] theorem withComponents_queue : ({ s with components := m } : State).queue = s.queue := rfl
@[simp] theorem withComponents_bound : ({ s with components := m } : State).bound = s.bound := rfl
@[simp] theorem withComponents_outs : ({ s with components := m } : State).outs = s.outs := rfl

@[simp] theorem withQueue_components : ({ s with queue := q } : State).components = s.components := rfl
@[simp] theorem withQueue_queue : ({ s with queue := q } : State).queue = q := rfl
@[simp] theorem withQueue_bound : ({ s with queue := q } : State).bound = s.bound := rfl
@[simp] theorem withQueue_outs : ({ s with queue := q } : State).outs = s.outs := rfl
@[simp] theorem lastOut_withQueue : ({ s with queue := q } : State).lastOut = s.lastOut := rfl

@[simp] theorem withBound_components : ({ s with bound := b } : State).components = s.components := rfl
@[simp] theorem withBound_queue : ({ s with bound := b } : State).queue = s.queue := rfl
@[simp] theorem withBound_bound : ({ s with bound := b } : State).bound = b := rfl
@[simp] theorem withBound_outs : ({ s with bound := b } : State).outs = s.outs := rfl

end Sys2Proof.Machine
end

