-- ==== Sys2Proof/Laws/Vectors.lean ====
section
/-!
SUPPORT. Lanes determine a vector, `ofLanes` and `lanes` undo each other, and a field of a record is read back from where it
was written.
-/

namespace Sys2Proof

theorem lane_ofLanes {n j : Nat} (f : Nat → Bit) (h : j < n) : lane (ofLanes n f) j = f j := by
  induction n with
  | zero => omega
  | succ n ih =>
    rw [lane, ofLanes, BitVec.getMsbD_concat]
    by_cases hj : j < n
    · rw [if_pos hj]
      exact ih hj
    · obtain rfl : j = n := by omega
      simp

theorem eq_of_lane_eq {n : Nat} {v w : Vec n} (h : ∀ j, j < n → lane v j = lane w j) : v = w :=
  BitVec.eq_of_getMsbD_eq h

theorem ofLanes_congr {n : Nat} {f g : Nat → Bit} (h : ∀ j, j < n → f j = g j) : ofLanes n f = ofLanes n g :=
  eq_of_lane_eq (fun j hj => by rw [lane_ofLanes f hj, lane_ofLanes g hj, h j hj])

@[simp] theorem ofLanes_lane {n : Nat} (v : Vec n) : ofLanes n (lane v) = v :=
  eq_of_lane_eq (fun _ hj => lane_ofLanes _ hj)

@[simp] theorem length_lanes {n : Nat} (v : Vec n) : (lanes v).length = n := by simp [lanes]

theorem getD_lanes {n j : Nat} (v : Vec n) (h : j < n) : (lanes v).getD j false = lane v j := by
  simp [lanes, List.getD, h]

/-- A field that stands after `before` is read back, whatever follows it. -/
theorem vecField_append {n off : Nat} (before after : List Bit) (v : Vec n) (h : before.length = off) :
    vecField n (before ++ (lanes v ++ after)) off = v := by
  subst h
  refine Eq.trans (ofLanes_congr fun j hj => ?_) (ofLanes_lane v)
  rw [List.getD_append_right _ _ _ _ (by omega), Nat.add_sub_cancel_left,
    List.getD_append _ _ _ _ (by simpa using hj), getD_lanes v hj]

/-- A field of a record is the lanes of its slice. -/
theorem lanes_vecField {n off : Nat} (r : List Bit) (h : off + n ≤ r.length) :
    lanes (vecField n r off) = (r.drop off).take n := by
  apply List.ext_getElem
  · simp; omega
  · intro j hj _
    have hj' : j < n := by simpa using hj
    have hr : lane (vecField n r off) j = r.getD (off + j) false := lane_ofLanes _ hj'
    rw [← getD_lanes _ hj', List.getD_eq_getElem _ _ hj, List.getD_eq_getElem _ _ (by omega)] at hr
    simpa only [List.getElem_take, List.getElem_drop] using hr

@[simp] theorem lane_map2 {n j : Nat} (f : Bit → Bit → Bit) (a b : Vec n) (h : j < n) :
    lane (map2 f a b) j = f (lane a j) (lane b j) := lane_ofLanes _ h

/-- The eight selectors. -/
theorem vec3_cases (i : Vec 3) :
    i = 0 ∨ i = 1 ∨ i = 2 ∨ i = 3 ∨ i = 4 ∨ i = 5 ∨ i = 6 ∨ i = 7 := by
  revert i; decide

/-- Selecting among eight is indexing their list. -/
theorem Eight.getElem?_toList {α : Type} (e : Eight α) (i : Vec 3) : e.toList[i.toNat]? = some (e.get i) := by
  rcases vec3_cases i with h | h | h | h | h | h | h | h <;> subst h <;> rfl

@[simp] theorem Eight.get_map {α β : Type} (f : α → β) (e : Eight α) (i : Vec 3) :
    (e.map f).get i = f (e.get i) := by
  rcases vec3_cases i with h | h | h | h | h | h | h | h <;> subst h <;> rfl

@[simp] theorem Eight.get_zipWith {α β γ : Type} (f : α → β → γ) (e : Eight α) (g : Eight β) (i : Vec 3) :
    (Eight.zipWith f e g).get i = f (e.get i) (g.get i) := by
  rcases vec3_cases i with h | h | h | h | h | h | h | h <;> subst h <;> rfl

@[simp] theorem Eight.get_fill {α : Type} (x : α) (i : Vec 3) : (Eight.fill x).get i = x := by
  rcases vec3_cases i with h | h | h | h | h | h | h | h <;> subst h <;> rfl

@[simp] theorem Eight.get_tabulate {α : Type} (f : Nat → α) (i : Vec 3) : (Eight.tabulate f).get i = f i.toNat := by
  rcases vec3_cases i with h | h | h | h | h | h | h | h <;> subst h <;> rfl

theorem Eight.eq_of_get_eq {α : Type} {e g : Eight α} (h : ∀ i, e.get i = g.get i) : e = g := by
  cases e; cases g
  have h0 := h 0; have h1 := h 1; have h2 := h 2; have h3 := h 3
  have h4 := h 4; have h5 := h 5; have h6 := h 6; have h7 := h 7
  simp [Eight.get, u] at h0 h1 h2 h3 h4 h5 h6 h7
  simp_all

end Sys2Proof
end

