-- ==== Sys2Proof/Laws/Tick.lean ====
section
/-!
SUPPORT. Everything a tick can do, and what the gates, the register and one RAM tier compute.
-/

namespace Sys2Proof.Machine

/-- A tick of a bound component for which `f` has a transition. -/
theorem tick_of_bound {f : Instance → Option (Output × Instance)} {s : State} {n : Nat} {c c' : Instance} {o : Output}
    (hb : s.bound = some n) (hc : Memory.find s.components n = some c) (hf : f c = some (o, c')) :
    tick f s = .next ({ s with components := Memory.put s.components n c' }.returns o) := by
  simp [tick, hb, hc, hf]

/-- If a tick answers a next state, a component is bound, `f` has a transition for it, and the next state is that
transition's. -/
theorem tick_next {f : Instance → Option (Output × Instance)} {s t : State} (h : tick f s = .next t) :
    ∃ n c o c', s.bound = some n ∧ Memory.find s.components n = some c ∧ f c = some (o, c') ∧
      t = { s with components := Memory.put s.components n c' }.returns o := by
  unfold tick at h
  split at h
  · cases h
  · next n hb =>
    split at h
    · cases h
    · next c hc =>
      split at h
      · cases h
      · next o c' hf =>
        cases h
        exact ⟨n, c, o, c', hb, hc, hf, rfl⟩

/-- A tick is refused where no component is bound for which `f` has a transition. -/
theorem tick_refused {f : Instance → Option (Output × Instance)} {s : State}
    (h : ∀ n c, s.bound = some n → Memory.find s.components n = some c → f c = none) :
    tick f s = .refused .badInstance := by
  unfold tick
  split
  · rfl
  · next n hb =>
    split
    · rfl
    · next c hc => simp [h n c hb hc]

theorem andGate_eq (x y : Bit) : andGate x y = (x && y) := by revert x y; decide

theorem muxGate_eq (x y sel : Bit) : muxGate x y sel = if sel = true then y else x := by
  revert x y sel; decide

theorem mux16Gate_eq (a b : Word) (sel : Bit) : mux16Gate a b sel = if sel = true then b else a := by
  refine eq_of_lane_eq fun j hj => ?_
  rw [mux16Gate, lane_map2 _ _ _ hj, muxGate_eq]
  split <;> rfl

@[simp] theorem bitTick_eq (s input load : Bit) : bitTick s input load = (s, if load = true then input else s) := by
  simp [bitTick, dffTick, muxGate_eq]

/-- The sixteen cells of a register act as one word with one load. -/
@[simp] theorem registerTick_eq (q input : Word) (load : Bit) :
    registerTick q input load = (q, if load = true then input else q) := by
  cases load <;> simp [registerTick]

theorem get_dmux8wayGate (input : Bit) (sel3 i : Vec 3) :
    (dmux8wayGate input sel3).get i = if i = sel3 then input else false := by
  simp [dmux8wayGate, u, BitVec.toNat_inj]

/-- One tier returns the addressed child's output, and ticks each child with its own bit of the demultiplexed load. -/
theorem ramTier_eq {α : Type} (childTick : α → Word → Bit → Word × α)
    (children : Eight α) (input : Word) (load : Bit) (high : Vec 3) :
    (ramTier childTick children input load high).1 = (childTick (children.get high) input load).1 ∧
    ∀ i, (ramTier childTick children input load high).2.get i
      = (childTick (children.get i) input (if i = high then load else false)).2 := by
  constructor
  · simp [ramTier, mux8way16Gate, get_dmux8wayGate]
  · intro i
    simp [ramTier, get_dmux8wayGate]

end Sys2Proof.Machine
end

