-- ==== Sys2Proof/Laws/Driver.lean ====
section
/-!
SUPPORT. Everything a step can do: construct, discard, or one call.
-/

namespace Sys2Proof.Machine

/-- The step, by what is sent next. -/
theorem step_of_queue {s : State} {e : Stimulus} {rest : List Stimulus} (h : s.queue = e :: rest) :
    step s = runStimulus e { s with queue := rest } := by
  simp [step, h]

theorem runRecord_of_decode {bits : List Bit} {binding : Option Nat} {s : State} {i : Instr}
    (h : decode bits = .ok i) : runRecord bits binding s = exec i { s with bound := binding } := by
  simp [runRecord, h]

/-- If a record answers a next state, it decodes, and the next state is that of its call. -/
theorem runRecord_next {bits : List Bit} {binding : Option Nat} {s t : State}
    (h : runRecord bits binding s = .next t) :
    ∃ i, decode bits = .ok i ∧ exec i { s with bound := binding } = .next t := by
  unfold runRecord at h
  split at h
  · cases h
  · cases h
  · next i hi => exact ⟨i, hi, h⟩

/-- If a script line answers a next state, it constructs a component or its call does. -/
theorem runCall_next {c : Call} {s t : State} (h : runCall c s = .next t) :
    (∃ k n v d, c = .new k n v ∧ construct n d s = .next t) ∨
    ((∀ k n v, c ≠ .new k n v) ∧ ∃ i b, exec i { s with bound := b } = .next t) := by
  unfold runCall at h
  split at h
  · next k n v =>
    split at h
    · cases h
    · next d hd => exact .inl ⟨k, n, v, d, rfl, h⟩
  · split at h
    · cases h
    · obtain ⟨i, -, hi⟩ := runRecord_next h
      exact .inr ⟨by simp, i, _, hi⟩
  · split at h
    · cases h
    · split at h
      · cases h
      · obtain ⟨i, -, hi⟩ := runRecord_next h
        exact .inr ⟨by simp, i, _, hi⟩

/-- No pseudo-operation expands to a `new` line. -/
theorem expand_ne_new (p : Pseudo) (k : Kind) (n : Nat) (v : Option Value) : p.expand.1 ≠ .new k n v := by
  cases p <;> simp [Pseudo.expand, pcLine]

/-- If a step answers a next state, it constructed or discarded one component, or it made one call, in a state that differs
from the one before only in the queue and the binding. -/
theorem step_next {s t : State} (h : step s = .next t) :
    ∃ e rest, s.queue = e :: rest ∧
      ((∃ n d, ((e = .construct n d) ∨ ∃ k v, e = .call (.new k n v)) ∧
          t = { s with queue := rest, components := Memory.put s.components n d.fresh }) ∨
       (∃ n, e = .discard n ∧ t = { s with queue := rest, components := Memory.erase s.components n }) ∨
       ((∀ n c, e ≠ .construct n c) ∧ (∀ n, e ≠ .discard n) ∧ (∀ k n v, e ≠ .call (.new k n v)) ∧
          ∃ i q b, exec i { s with queue := q, bound := b } = .next t)) := by
  unfold step at h
  split at h
  · cases h
  · next e rest hq =>
    refine ⟨e, rest, hq, ?_⟩
    cases e with
    | construct n c =>
      refine .inl ⟨n, c, .inl rfl, ?_⟩
      cases h; rfl
    | discard n =>
      refine .inr (.inl ⟨n, rfl, ?_⟩)
      cases h; rfl
    | record bits binding =>
      obtain ⟨i, -, hi⟩ := runRecord_next h
      exact .inr (.inr ⟨by simp, by simp, by simp, i, _, _, hi⟩)
    | call c =>
      rcases runCall_next h with ⟨k, n, v, d, rfl, hd⟩ | ⟨hn, i, b, hi⟩
      · refine .inl ⟨n, d, .inr ⟨k, v, rfl⟩, ?_⟩
        cases hd; rfl
      · exact .inr (.inr ⟨by simp, by simp, by simpa using hn, i, _, _, hi⟩)
    | pseudo p =>
      simp only [runStimulus, runPseudo] at h
      split at h
      · cases h
      · split at h
        · rcases runCall_next h with ⟨k, n, v, d, hp, -⟩ | ⟨-, i, b, hi⟩
          · exact absurd hp (expand_ne_new p k n v)
          · exact .inr (.inr ⟨by simp, by simp, by simp, i, _, _, hi⟩)
        · cases h

end Sys2Proof.Machine
end

