-- ==== Sys2Proof/Laws/PerInstr.lean ====
section
/-!
SUPPORT. For each operation: the record that `encode` writes is well formed.
-/

namespace Sys2Proof.Laws.RecordShape

/-- The record of a call passes every check on records, and begins with its own operation's field. -/
def Statement (i : Instr) : Prop := recordWellFormed (encode i) = true ∧ opOfRecord (encode i) = some i.op

theorem five_le_recordLength (op : Op) : 5 ≤ op.recordLength := by cases op <;> decide

/-- A record that begins with an operation's field and has its length is well formed. -/
theorem of_length (i : Instr) (hop : opOfRecord (encode i) = some i.op)
    (hlen : (encode i).length = i.op.recordLength) : Statement i := by
  refine ⟨?_, hop⟩
  simp [recordWellFormed, hasOpField, opIsAssigned, lengthFits, Config.opFieldWidth, hop, hlen, five_le_recordLength]

theorem nand (x : Bit) (y : Bit) : Statement (.nand x y) :=
  of_length _ rfl (by simp [encode, encodeFields, Instr.op, Op.field, Op.recordLength])

theorem not (x : Bit) : Statement (.not x) :=
  of_length _ rfl (by simp [encode, encodeFields, Instr.op, Op.field, Op.recordLength])

theorem and (x : Bit) (y : Bit) : Statement (.and x y) :=
  of_length _ rfl (by simp [encode, encodeFields, Instr.op, Op.field, Op.recordLength])

theorem or (x : Bit) (y : Bit) : Statement (.or x y) :=
  of_length _ rfl (by simp [encode, encodeFields, Instr.op, Op.field, Op.recordLength])

theorem nor (x : Bit) (y : Bit) : Statement (.nor x y) :=
  of_length _ rfl (by simp [encode, encodeFields, Instr.op, Op.field, Op.recordLength])

theorem xor (x : Bit) (y : Bit) : Statement (.xor x y) :=
  of_length _ rfl (by simp [encode, encodeFields, Instr.op, Op.field, Op.recordLength])

theorem and16 (a : Word) (b : Word) : Statement (.and16 a b) :=
  of_length _ rfl (by simp [encode, encodeFields, Instr.op, Op.field, Op.recordLength])

theorem mux (x : Bit) (y : Bit) (sel : Bit) : Statement (.mux x y sel) :=
  of_length _ rfl (by simp [encode, encodeFields, Instr.op, Op.field, Op.recordLength])

theorem mux16 (a : Word) (b : Word) (sel : Bit) : Statement (.mux16 a b sel) :=
  of_length _ rfl (by simp [encode, encodeFields, Instr.op, Op.field, Op.recordLength])

theorem mux8way16 (v : Eight Word) (sel3 : Vec 3) : Statement (.mux8way16 v sel3) :=
  of_length _ rfl (by simp [encode, encodeFields, Instr.op, Op.field, Op.recordLength])

theorem dmux (input : Bit) (sel : Bit) : Statement (.dmux input sel) :=
  of_length _ rfl (by simp [encode, encodeFields, Instr.op, Op.field, Op.recordLength])

theorem dmux8way (input : Bit) (sel3 : Vec 3) : Statement (.dmux8way input sel3) :=
  of_length _ rfl (by simp [encode, encodeFields, Instr.op, Op.field, Op.recordLength])

theorem dff (input : Bit) : Statement (.dff input) :=
  of_length _ rfl (by simp [encode, encodeFields, Instr.op, Op.field, Op.recordLength])

theorem bit (input : Bit) (load : Bit) : Statement (.bit input load) :=
  of_length _ rfl (by simp [encode, encodeFields, Instr.op, Op.field, Op.recordLength])

theorem register (input : Word) (load : Bit) : Statement (.register input load) :=
  of_length _ rfl (by simp [encode, encodeFields, Instr.op, Op.field, Op.recordLength])

theorem ram8 (input : Word) (load : Bit) (address : Vec 3) : Statement (.ram8 input load address) :=
  of_length _ rfl (by simp [encode, encodeFields, Instr.op, Op.field, Op.recordLength])

theorem ram64 (input : Word) (load : Bit) (address : Vec 6) : Statement (.ram64 input load address) :=
  of_length _ rfl (by simp [encode, encodeFields, Instr.op, Op.field, Op.recordLength])

theorem pc (input : Word) (load : Bit) (reset : Bit) (inc : Bit) : Statement (.pc input load reset inc) :=
  of_length _ rfl (by simp [encode, encodeFields, Instr.op, Op.field, Op.recordLength])

theorem inc16 (v : Word) : Statement (.inc16 v) :=
  of_length _ rfl (by simp [encode, encodeFields, Instr.op, Op.field, Op.recordLength])

end Sys2Proof.Laws.RecordShape
end

