-- ==== Sys2Proof/Machine/Flags.lean ====
section
/-!
DEFINITION. No component has a status flag, condition code or predicate register (10_state.md R25), and no operation of
40_gates.md to 44_pc.md writes one, so this file defines nothing.
-/
end

