-- ==== Sys2Proof/Tests/Slice0.lean ====
section
/-!
SUPPORT. Tests of the model.
Expected records and results are those of spec/95_test_vectors.md (the section is named at each), which derives them from the
rules; the model's own answers are used nowhere.
-/

namespace Sys2Proof.Tests

open Sys2Proof Sys2Proof.Machine

/-- The bit 0. -/
abbrev O : Bit := false

/-- The bit 1. -/
abbrev I : Bit := true

/-- A state in which one component stands under the name 7 and the current record is bound to it. -/
def one (c : Instance) : State := ⟨[(7, c)], [], some 7, []⟩

/-- A state in which the driver is going to send `q`, with components `m`. -/
def sending (m : Memory) (q : List Stimulus) : State := ⟨m, q, none, []⟩

/-- What a call returned, if it answered a next state. -/
def returned : Host.Outcome State Fault Refusal → Option (List Output)
  | .next t => some t.outs
  | .fault _ => none
  | .refused _ => none

/-- What stands under a name after a call, if it answered a next state. -/
def holds (n : Nat) : Host.Outcome State Fault Refusal → Option Instance
  | .next t => Memory.find t.components n
  | .fault _ => none
  | .refused _ => none

/-- The refusal a call answered with. -/
def refusal : Host.Outcome State Fault Refusal → Option Refusal
  | .next _ => none
  | .fault _ => none
  | .refused r => some r

/-- A RAM8 whose word `k` is `k` times 0x1111. -/
def someRam8 : Eight Word :=
  ⟨0x0000#16, 0x1111#16, 0x2222#16, 0x3333#16, 0x4444#16, 0x5555#16, 0x6666#16, 0x7777#16⟩

/-- A RAM64 of zeros but for word 9. -/
def someRam64 : Eight (Eight Word) :=
  { Eight.fill (Eight.fill 0#16) with v1 := { Eight.fill 0#16 with v1 := 0x2B67#16 } }

/-! ## Ill-formed records, one for each check of WellFormed.lean -/

theorem test_record_without_op_field : hasOpField [O, O, O, I] = false := by decide
theorem test_record_with_reserved_op_field : opIsAssigned [I, O, O, I, I, O, O] = false := by decide
theorem test_record_one_bit_short : lengthFits [O, O, O, O, O, I] = false := by decide
theorem test_record_one_bit_long : lengthFits [O, O, O, O, O, I, I, O] = false := by decide
theorem test_ill_formed_records_are_refused :
    recordWellFormed [O, O, O, I] = false ∧ recordWellFormed [I, O, O, I, I, O, O] = false ∧
    recordWellFormed [O, O, O, O, O, I] = false ∧ recordWellFormed [O, O, O, O, O, I, I] = true := by decide

/-! ## The parameters of 00_scope.md R6 are those of the types -/

theorem test_parameters : Word = Vec Config.wordWidth ∧ (Eight.fill O).toList.length = Config.branching ∧
    2 ^ Config.ram8AddressWidth = (ram8Words someRam8).length ∧
    2 ^ Config.ram64AddressWidth = (ram64Words someRam64).length ∧ Op.nand.field.length = Config.opFieldWidth :=
  ⟨rfl, rfl, rfl, rfl, rfl⟩

/-! ## Decoding: records written out from 30_encoding.md R48 -/

/-- 2.1. -/
theorem test_decode_nand : (decode [O, O, O, O, O, I, O]).toOption = some (.nand I O) := by
  decide

/-- R48. -/
theorem test_decode_not : (decode [O, O, O, O, I, I]).toOption = some (.not I) := by
  decide

/-- R48. -/
theorem test_decode_and : (decode [O, O, O, I, O, I, O]).toOption = some (.and I O) := by
  decide

/-- R48. -/
theorem test_decode_or : (decode [O, O, O, I, I, O, I]).toOption = some (.or O I) := by
  decide

/-- R48. -/
theorem test_decode_nor : (decode [O, O, I, O, O, O, I]).toOption = some (.nor O I) := by
  decide

/-- P3. -/
theorem test_decode_xor : (decode [O, O, I, O, I, I, O]).toOption = some (.xor I O) := by
  decide

/-- P3. -/
theorem test_decode_and16 : (decode ([O, O, I, I, O] ++
    [I, O, O, O, O, O, O, O, O, O, O, O, O, O, O, O] ++
    [I, I, I, I, I, I, I, I, I, I, I, I, I, I, I, I])).toOption = some (.and16 0x8000#16 0xFFFF#16) := by
  decide

/-- R48. -/
theorem test_decode_mux : (decode [O, O, I, I, I, I, O, I]).toOption = some (.mux I O I) := by
  decide

/-- 2.3. -/
theorem test_decode_mux16 : (decode ([O, I, O, O, O] ++
    [O, O, O, I, O, O, I, O, O, O, I, I, O, I, O, O] ++
    [I, I, I, I, I, I, I, I, I, I, I, I, I, I, I, I] ++
    [O])).toOption = some (.mux16 0x1234#16 0xFFFF#16 O) := by
  decide

/-- 2.4. -/
theorem test_decode_mux8way16 : (decode ([O, I, O, O, I] ++
    [O, O, O, O, O, O, O, O, O, O, O, O, O, O, O, O] ++
    [O, O, O, I, O, O, O, I, O, O, O, I, O, O, O, I] ++
    [O, O, I, O, O, O, I, O, O, O, I, O, O, O, I, O] ++
    [O, O, I, I, O, O, I, I, O, O, I, I, O, O, I, I] ++
    [O, I, O, O, O, I, O, O, O, I, O, O, O, I, O, O] ++
    [O, I, O, I, O, I, O, I, O, I, O, I, O, I, O, I] ++
    [O, I, I, O, O, I, I, O, O, I, I, O, O, I, I, O] ++
    [O, I, I, I, O, I, I, I, O, I, I, I, O, I, I, I] ++
    [I, O, I])).toOption = some (.mux8way16 someRam8 0b101#3) := by
  decide +kernel

/-- R48. -/
theorem test_decode_dmux : (decode [O, I, O, I, O, I, O]).toOption = some (.dmux I O) := by
  decide

/-- 2.5. -/
theorem test_decode_dmux8way : (decode [O, I, O, I, I, I, O, I, I]).toOption = some (.dmux8way I 0b011#3) := by
  decide

/-- 2.6. -/
theorem test_decode_dff : (decode [O, I, I, O, O, I]).toOption = some (.dff I) := by
  decide

/-- R48. -/
theorem test_decode_bit : (decode [O, I, I, O, I, I, O]).toOption = some (.bit I O) := by
  decide

/-- L1.6. -/
theorem test_decode_register : (decode ([O, I, I, I, O] ++
    [I, O, O, O, O, O, I, O, I, O, O, O, O, I, O, I] ++
    [I])).toOption = some (.register 0x8285#16 I) := by
  decide

/-- L1.8. -/
theorem test_decode_ram8 : (decode ([O, I, I, I, I] ++
    [O, O, I, O, I, O, I, I, O, I, I, O, O, I, I, I] ++
    [I] ++
    [O, O, I])).toOption = some (.ram8 0x2B67#16 I 1#3) := by
  decide

/-- P1. -/
theorem test_decode_ram64 : (decode ([I, O, O, O, O] ++
    [O, O, I, O, I, O, I, I, O, I, I, O, O, I, I, I] ++
    [I] ++
    [O, O, I, O, O, I])).toOption = some (.ram64 0x2B67#16 I 9#6) := by
  decide

/-- P2. -/
theorem test_decode_pc : (decode ([I, O, O, O, I] ++
    [O, O, O, O, O, O, O, O, O, O, I, O, O, O, O, O] ++
    [O] ++
    [O] ++
    [I])).toOption = some (.pc 0x0020#16 O O I) := by
  decide

/-- P2. -/
theorem test_decode_inc16 : (decode ([I, O, O, I, O] ++
    [O, O, O, O, O, O, O, O, O, O, O, I, O, O, O, O])).toOption = some (.inc16 0x0010#16) := by
  decide

/-! ## Results -/

/-- 2.1. -/
theorem test_nand : returned (exec (.nand I I) (one (.bit O))) = some [.bit O] := by decide
/-- 2.1. -/
theorem test_not : returned (exec (.not I) (one (.bit O))) = some [.bit O] := by decide
/-- 2.1. -/
theorem test_and : returned (exec (.and I O) (one (.bit O))) = some [.bit O] := by decide
/-- 2.1. -/
theorem test_or : returned (exec (.or O I) (one (.bit O))) = some [.bit I] := by decide
/-- 2.1. -/
theorem test_nor : returned (exec (.nor O I) (one (.bit O))) = some [.bit O] := by decide
/-- 2.1. -/
theorem test_xor : returned (exec (.xor I I) (one (.bit O))) = some [.bit O] := by decide
/-- 2.2, mixed lanes. -/
theorem test_and16 : returned (exec (.and16 0x2B67#16 0x8285#16) (one (.bit O))) = some [.word 0x0205#16] := by
  decide
/-- 2.3. -/
theorem test_mux : returned (exec (.mux I O I) (one (.bit O))) = some [.bit O] := by decide
/-- 2.3. -/
theorem test_mux16 : returned (exec (.mux16 0x1234#16 0xFFFF#16 O) (one (.bit O))) = some [.word 0x1234#16] := by
  decide
/-- 2.4. -/
theorem test_mux8way16 : returned (exec (.mux8way16 someRam8 0b011#3) (one (.bit O))) = some [.word 0x3333#16] := by
  decide
/-- 2.5. -/
theorem test_dmux : returned (exec (.dmux I I) (one (.bit O))) = some [.pair O I] := by decide
/-- 2.5. -/
theorem test_dmux8way :
    returned (exec (.dmux8way I 0b110#3) (one (.bit O))) = some [.eight ⟨O, O, O, O, O, O, I, O⟩] := by decide
/-- 2.6. -/
theorem test_dff : returned (exec (.dff I) (one (.dff O))) = some [.bit O] ∧
    holds 7 (exec (.dff I) (one (.dff O))) = some (.dff I) := by decide
/-- 2.6, (1, 0, 1) gives (1, 0). -/
theorem test_bit : returned (exec (.bit O I) (one (.bit I))) = some [.bit I] ∧
    holds 7 (exec (.bit O I) (one (.bit I))) = some (.bit O) := by decide
/-- 2.7, all 16 bits replaced. -/
theorem test_register : returned (exec (.register 0x0001#16 I) (one (.register 0xFFFF#16))) = some [.word 0xFFFF#16] ∧
    holds 7 (exec (.register 0x0001#16 I) (one (.register 0xFFFF#16))) = some (.register 0x0001#16) := by decide
/-- 2.8, write returns old (the RAM8 of 2.4's words). -/
theorem test_ram8 : returned (exec (.ram8 0x0001#16 I 7#3) (one (.ram8 someRam8))) = some [.word 0x7777#16] ∧
    holds 7 (exec (.ram8 0x0001#16 I 7#3) (one (.ram8 someRam8))) =
      some (.ram8 { someRam8 with v7 := 0x0001#16 }) := by decide +kernel
/-- P1: word 9 is word 1 of child 1; a write there returns the old word. -/
theorem test_ram64 : returned (exec (.ram64 0x0001#16 I 9#6) (one (.ram64 someRam64))) = some [.word 0x2B67#16] ∧
    holds 7 (exec (.ram64 0x0001#16 I 9#6) (one (.ram64 someRam64))) =
      some (.ram64 { Eight.fill (Eight.fill 0#16) with v1 := { Eight.fill 0#16 with v1 := 0x0001#16 } }) := by
  decide +kernel
/-- 2.9, row 1 1 1. -/
theorem test_pc : returned (exec (.pc 0xABCD#16 I I I) (one (.pc 0x1234#16))) = some [.word 0x1234#16] ∧
    holds 7 (exec (.pc 0xABCD#16 I I I) (one (.pc 0x1234#16))) = some (.pc 0x0000#16) := by decide +kernel
/-- 2.9, row 0 0 1: `inc` alone does nothing. -/
theorem test_pc_inc_alone : holds 7 (exec (.pc 0xABCD#16 O O I) (one (.pc 0x1234#16))) = some (.pc 0x1234#16) := by
  decide +kernel
/-- 2.10, signed overflow and unsigned wrap. -/
theorem test_inc16 : returned (exec (.inc16 0x7FFF#16) (one (.bit O))) = some [.word 0x8000#16] ∧
    returned (exec (.inc16 0xFFFF#16) (one (.bit O))) = some [.word 0x0000#16] := by decide

/-! ## The host's words, the script, and refusals -/

/-- The low five bits of a table word are `match`, and a field lies at its offset (opcode_table.json, row BIT). -/
theorem test_table_word_of_bit : decodeTableWord 7 0b0101101 = some (.bit I O) := by decide
/-- A word of a sequential row runs from reset, on a component constructed for it (log 6). -/
theorem test_fetch_word_runs_from_reset :
    returned (step (State.reset.withFetchWord 24 0x11)) = some [.word 0x0000#16] := by decide +kernel
/-- A reserved row is refused. -/
theorem test_fetch_word_reserved : refusal (step (State.reset.withFetchWord 8 0x13)) = some .reservedOp := by decide
/-- With nothing to do there is no step. -/
theorem test_step_without_stimulus : refusal (step State.reset) = some .noStimulus := by decide
/-- L1.6: -32123 is 0x8285. -/
theorem test_signed_decimal : (Value.toWord none (.dec (-32123))).toOption = some 0x8285#16 := by decide
/-- R58: a hexadecimal word has exactly four digits. -/
theorem test_hex_word : (Value.toWord none (.hex [2, 11, 6, 7])).toOption = some 0x2B67#16 ∧
    (Value.toWord none (.hex [2, 11, 6])).toOption = none := by decide
/-- R58: every field must be given, and once. -/
theorem test_field_missing : refusal (step (sending [(7, .bit O)] [.call (.exec 7 [(.input, .dec 1)])])) =
    some .badOperand := by decide
/-- R59: PCRESET is for a PC (log 13). -/
theorem test_pseudo_of_another_kind : refusal (step (sending [(7, .bit O)] [.pseudo (.pcReset 7)])) =
    some .badInstance := by decide

/-- Log 18: too long, and bound to none. -/
theorem test_bad_length_before_bad_component :
    refusal (step (sending [] [.record [O, I, I, O, O, I, O] none])) = some .badLength := by decide
/-- Log 19: no component 7 and a field missing; then a bare sequential line with a field missing. -/
theorem test_order_of_line_refusals :
    refusal (step (sending [] [.call (.exec 7 [])])) = some .badInstance ∧
    refusal (step (sending [] [.call (.op .bit [])])) = some .badOperand ∧
    refusal (step (sending [] [.call (.op .dff [(.input, .dec 1)])])) = some .badInstance := by decide

/-! ## Witnesses: states and operands that meet the hypotheses of the statements -/

theorem bound_one (c : Instance) : BoundTo (one c) 7 c := ⟨rfl, rfl⟩

theorem witness_bound_dff : BoundTo (one (.dff I)) 7 (.dff I) := bound_one _
theorem witness_bound_bit : BoundTo (one (.bit I)) 7 (.bit I) := bound_one _
theorem witness_bound_register : BoundTo (one (.register 0x8285#16)) 7 (.register 0x8285#16) := bound_one _
theorem witness_bound_ram8 : BoundTo (one (.ram8 someRam8)) 7 (.ram8 someRam8) := bound_one _
theorem witness_bound_ram64 : BoundTo (one (.ram64 someRam64)) 7 (.ram64 someRam64) := bound_one _
theorem witness_bound_pc : BoundTo (one (.pc 0xFFFF#16)) 7 (.pc 0xFFFF#16) := bound_one _

/-- ADecodedRecordIsTheRecordOfItsCall. -/
theorem witness_record_decodes : decode [O, O, O, O, O, I, O] = .ok (.nand I O) := rfl
/-- RecordsAreRefusedExactlyForFieldOrLength: the last assigned and the first reserved number, and the largest; a length one
short of the table's, and the table's. -/
theorem witness_record_numbers :
    leadingNumber [I, O, O, I, O] = 0x12 ∧ leadingNumber [I, O, O, I, I] = 0x13 ∧ leadingNumber [I, I, I, I, I] = 0x1F ∧
    5 ≤ [I, O, O, I, I].length ∧
    [O, O, O, O, O, I].length ≠ tableRecordLengths.getD (leadingNumber [O, O, O, O, O, I]) 0 ∧
    [O, O, O, O, O, I, I].length = tableRecordLengths.getD (leadingNumber [O, O, O, O, O, I, I]) 0 := by decide
/-- ARecordWithNoOperationFieldIsABadLength. -/
theorem witness_short_record : [O, O, O, O].length < 5 := by decide
/-- TableWordsNameTheirOperation. -/
theorem witness_table_number : 0x12 < 0x13 := by decide
/-- AStepRunsTheDecodedCall. -/
theorem witness_step_decodes :
    (sending [] [.record [O, O, O, O, O, I, O] none]).queue = .record [O, O, O, O, O, I, O] none :: [] ∧
    decode [O, O, O, O, O, I, O] = .ok (.nand I O) := ⟨rfl, rfl⟩
/-- AStepRefusesReservedAndIllSizedRecords: a reserved record, and one of a wrong length. -/
theorem witness_refused_records :
    (sending [] [.record [I, O, O, I, I] none]).queue = .record [I, O, O, I, I] none :: [] ∧
    5 ≤ [I, O, O, I, I].length ∧ 0x13 ≤ leadingNumber [I, O, O, I, I] ∧
    (sending [] [.record [O, O, O, O, O] none]).queue = .record [O, O, O, O, O] none :: [] ∧
    leadingNumber [O, O, O, O, O] < 0x13 ∧
    [O, O, O, O, O].length ≠ tableRecordLengths.getD (leadingNumber [O, O, O, O, O]) 0 := by
  refine ⟨rfl, ?_, ?_, rfl, ?_, ?_⟩ <;> decide
/-- ASequentialCallNeedsAComponentOfItsKind: none bound, and one of another kind bound. -/
theorem witness_no_component :
    kindOfOp (Instr.dff I).op = some .dff ∧ (∀ n c, BoundTo State.reset n c → c.kind ≠ .dff) ∧
    ∀ n c, BoundTo (one (.bit I)) n c → c.kind ≠ .dff := by
  refine ⟨rfl, fun n c h => (by cases h.1), fun n c h => ?_⟩
  obtain rfl : 7 = n := by simpa [one] using h.1
  obtain rfl : Instance.bit I = c := by simpa [one, Memory.find] using h.2
  decide
/-- AnAcceptedRecordAlwaysCompletes: a record accepted, and one not. -/
theorem witness_accepted_record :
    (sending [(7, .dff O)] [recordTo 7 (.dff I)]).queue = .record (encode (.dff I)) (some 7) :: [] ∧
    acceptsRecord (sending [(7, .dff O)] []) (encode (.dff I)) (some 7) = true ∧
    acceptsRecord (sending [(7, .dff O)] []) (encode (.dff I)) none = false := ⟨rfl, by decide, by decide⟩
/-- CombinationalCallsArePureAndTouchNothing. -/
theorem witness_combinational : kindOfOp (Instr.inc16 0#16).op = none := rfl
/-- Dmux8WayPassesItsInputToTheNumberedOutput and ExactlyTheAddressedLeafHasItsLoadEnabled, at the ends of the ranges. -/
theorem witness_numbers_below_eight : 0 < 8 ∧ 7 < 8 := by decide
/-- ADffDelaysEverySequenceByOneTick (L1.4's inputs). -/
theorem witness_dff_sequence :
    Memory.find (sending [(7, .dff I)] ([O, O, I, I, O].map (fun v => recordTo 7 (.dff v)))).components 7 =
      some (.dff I) ∧
    (sending [(7, .dff I)] ([O, O, I, I, O].map (fun v => recordTo 7 (.dff v)))).queue =
      [O, O, I, I, O].map (fun v => recordTo 7 (.dff v)) := ⟨rfl, rfl⟩
/-- ARamCallStoresOnlyAtItsAddress: a call with a next state, at an address with others beside it. -/
theorem witness_ram_call :
    (∃ t, exec (.ram8 1#16 I 7#3) (one (.ram8 someRam8)) = .next t) ∧ 0 ≠ (7#3).toNat ∧
    (∃ t, exec (.ram64 1#16 I 63#6) (one (.ram64 someRam64)) = .next t) ∧ 0 ≠ (63#6).toNat :=
  ⟨⟨_, rfl⟩, by decide, ⟨_, rfl⟩, by decide⟩
/-- CallsWithLoadZeroChangeNoComponent, for each of the five forms. -/
theorem witness_load_zero :
    (∃ t, exec (.bit I O) (one (.bit O)) = .next t) ∧
    (∃ t, exec (.register 1#16 O) (one (.register 0#16)) = .next t) ∧
    (∃ t, exec (.ram8 1#16 O 0#3) (one (.ram8 someRam8)) = .next t) ∧
    (∃ t, exec (.ram64 1#16 O 0#6) (one (.ram64 someRam64)) = .next t) ∧
    (∃ t, exec (.pc 1#16 O I I) (one (.pc 0#16)) = .next t) :=
  ⟨⟨_, rfl⟩, ⟨_, rfl⟩, ⟨_, rfl⟩, ⟨_, rfl⟩, ⟨_, rfl⟩⟩
/-- ASequentialCallWritesOnlyItsOwnComponent and ASequentialCallDependsOnlyOnItsOwnComponent: two states that share
component 7. -/
theorem witness_own_component :
    kindOfOp (Instr.dff I).op = some .dff ∧ (∃ t, exec (.dff I) (one (.dff O)) = .next t) ∧
    BoundTo (one (.dff O)) 7 (.dff O) ∧ BoundTo ⟨[(3, .pc 1#16), (7, .dff O)], [], some 7, []⟩ 7 (.dff O) :=
  ⟨rfl, ⟨_, rfl⟩, bound_one _, rfl, rfl⟩
/-- CallsOnDifferentComponentsCommute. -/
theorem witness_two_components : 3 ≠ 7 ∧ ∃ t₁ t₂,
    exec (.dff I) { sending [(3, .dff O), (7, .bit O)] [] with bound := some 3 } = .next t₁ ∧
    exec (.bit I I) { t₁ with bound := some 7 } = .next t₂ := ⟨by decide, _, _, rfl, rfl⟩
/-- ConstructingGivesTheInitialState and DiscardingRemovesOnlyTheNamedComponent, for each kind. -/
theorem witness_construct_and_discard :
    (sending [] [.construct 7 (.dff I)]).queue = .construct 7 (.dff I) :: [] ∧
    (sending [] [.construct 7 .bit]).queue = .construct 7 .bit :: [] ∧
    (sending [] [.construct 7 .register]).queue = .construct 7 .register :: [] ∧
    (sending [] [.construct 7 .ram8]).queue = .construct 7 .ram8 :: [] ∧
    (sending [] [.construct 7 .ram64]).queue = .construct 7 .ram64 :: [] ∧
    (sending [] [.construct 7 .pc]).queue = .construct 7 .pc :: [] ∧
    (sending [(7, .pc 1#16)] [.discard 7]).queue = .discard 7 :: [] := ⟨rfl, rfl, rfl, rfl, rfl, rfl, rfl⟩
/-- TheFirstCallReturnsTheInitialContent. -/
theorem witness_first_call :
    kindOfOp (Instr.dff O).op = some (Construction.dff I).fresh.kind ∧
    kindOfOp (Instr.ram64 0#16 O 63#6).op = some Construction.ram64.fresh.kind ∧
    (sending [] [.construct 7 .ram64, recordTo 7 (.ram64 0#16 O 63#6)]).queue =
      .construct 7 .ram64 :: recordTo 7 (.ram64 0#16 O 63#6) :: [] := ⟨rfl, rfl, rfl⟩
/-- WritingEveryAddressRestoresARam. -/
theorem witness_restoring_writes :
    Memory.find [(7, Instance.ram8 someRam8)] 7 = some (.ram8 someRam8) ∧
    (sending [(7, .ram8 someRam8)]
      ((List.range 8).map (fun k => recordTo 7 (.ram8 0#16 I (BitVec.ofNat 3 k))) ++ [])).queue =
      (List.range 8).map (fun k => recordTo 7 (.ram8 0#16 true (BitVec.ofNat 3 k))) ++ [] ∧
    Memory.find [(7, Instance.ram64 someRam64)] 7 = some (.ram64 someRam64) ∧
    (sending [(7, .ram64 someRam64)]
      ((List.range 64).map (fun k => recordTo 7 (.ram64 0#16 I (BitVec.ofNat 6 k))) ++ [])).queue =
      (List.range 64).map (fun k => recordTo 7 (.ram64 0#16 true (BitVec.ofNat 6 k))) ++ [] :=
  ⟨rfl, rfl, rfl, rfl⟩
/-- ForwardingPassesTheContentBeforeTheCall. -/
theorem witness_forwarding :
    3 ≠ 7 ∧ Memory.find [(3, Instance.register 1#16), (7, Instance.register 2#16)] 3 = some (.register 1#16) ∧
    Memory.find [(3, Instance.register 1#16), (7, Instance.register 2#16)] 7 = some (.register 2#16) ∧
    (sending [(3, .register 1#16), (7, .register 2#16)]
      [recordTo 3 (.register 5#16 true), .call (.exec 7 [(.input, .returned), (.load, .dec 1)])]).queue =
      recordTo 3 (.register 5#16 true) :: .call (.exec 7 [(.input, .returned), (.load, .dec 1)]) :: [] :=
  ⟨by decide, rfl, rfl, rfl⟩
/-- SignedDecimalWordsAreTwosComplement, at the ends of the range and beyond them. -/
theorem witness_decimals :
    ((-32768 : Int) ≤ -32768 ∧ (-32768 : Int) ≤ 32767) ∧ ((-32768 : Int) ≤ 32767 ∧ (32767 : Int) ≤ 32767) ∧
    (-32769 : Int) < -32768 ∧ (32767 : Int) < 32768 := by decide
/-- AScriptLineRunsTheCallItAssembles: a line of each form. -/
theorem witness_lines :
    assemble none .nand [(.y, .dec 0), (.x, .dec 1)] = .ok (.nand I O) ∧
    (sending [] [.call (.op .nand [(.y, .dec 0), (.x, .dec 1)])]).queue =
      .call (.op .nand [(.y, .dec 0), (.x, .dec 1)]) :: [] ∧
    assemble none (Instance.bit O).kind.op [(.load, .dec 1), (.input, .dec 0)] = .ok (.bit O I) ∧
    Memory.find [(7, Instance.bit O)] 7 = some (.bit O) ∧
    (sending [(7, .bit O)] [.call (.exec 7 [(.load, .dec 1), (.input, .dec 0)])]).queue =
      .call (.exec 7 [(.load, .dec 1), (.input, .dec 0)]) :: [] := ⟨rfl, rfl, rfl, rfl, rfl⟩
/-- ALineOfTheTablesFieldsAssemblesToItsCall: values of each form of operand, at the ends of their ranges, and fields in
another order than the table's. -/
theorem witness_line_fields :
    Value.toBit none (.dec 0) = .ok O ∧ Value.toWord none (.dec (-32768)) = .ok 0x8000#16 ∧
    Value.toVec 3 (.dec 7) = .ok 7#3 ∧ Value.toVec 6 (.dec 63) = .ok 63#6 ∧
    List.Perm [(Field.load, Value.dec 0), (.input, .dec (-32768))] [(.input, .dec (-32768)), (.load, .dec 0)] ∧
    (Eight.fill (Value.dec (-32768))).v7 = .dec (-32768) ∧
    Value.toWord none (Eight.fill (Value.dec (-32768))).v0 = .ok (Eight.fill 0x8000#16).v0 :=
  ⟨rfl, rfl, rfl, rfl, List.Perm.swap _ _ _, rfl, rfl⟩
/-- ANewLineConstructsWithTheGivenInit: each of its four lines. -/
theorem witness_new_lines :
    (sending [] [.call (.new .dff 7 none)]).queue = .call (.new .dff 7 none) :: [] ∧
    (sending [] [.call (.new .dff 7 (some (.dec 1)))]).queue = .call (.new .dff 7 (some (.dec 1))) :: [] ∧
    Value.toBit none (.dec 1) = .ok I ∧ Kind.pc ≠ .dff ∧
    (sending [] [.call (.new .pc 7 none)]).queue = .call (.new .pc 7 none) :: [] ∧
    (sending [] [.call (.new .pc 7 (some (.dec 1)))]).queue = .call (.new .pc 7 (some (.dec 1))) :: [] :=
  ⟨rfl, rfl, rfl, by decide, rfl, rfl⟩
/-- PseudoOperationsAreTheCallsTheyExpandTo: a component for each clause, values that resolve, and each pseudo-operation as
the next thing sent. -/
theorem witness_pseudo_operations :
    Memory.find (one (.bit O)).components 7 = some (.bit O) ∧
    Memory.find (one (.register 1#16)).components 7 = some (.register 1#16) ∧
    Memory.find (one (.ram8 someRam8)).components 7 = some (.ram8 someRam8) ∧
    Memory.find (one (.ram64 someRam64)).components 7 = some (.ram64 someRam64) ∧
    Memory.find (one (.pc 1#16)).components 7 = some (.pc 1#16) ∧
    Value.toBit none (.dec 1) = .ok I ∧ Value.toWord none (.dec 1) = .ok 1#16 ∧
    Value.toVec 3 (.dec 7) = .ok 7#3 ∧ Value.toVec 6 (.dec 63) = .ok 63#6 ∧
    ∀ p ∈ [Pseudo.set 7 (.dec 1), .hold 7, .write 7 (.dec 7) (.dec 1), .read 7 (.dec 7), .pcLoad 7 (.dec 1), .pcReset 7,
      .pcRead 7], ({ one (.bit O) with queue := [.pseudo p] } : State).queue = .pseudo p :: [] :=
  ⟨rfl, rfl, rfl, rfl, rfl, rfl, rfl, rfl, rfl, fun _ _ => rfl⟩
/-- PcStepAdvancesThePcByOne, at the wrap. -/
theorem witness_pc_step :
    Memory.find (sending [(7, .pc 0xFFFF#16)] [.pseudo (.pcStep 7)]).components 7 = some (.pc 0xFFFF#16) ∧
    (sending [(7, .pc 0xFFFF#16)] [.pseudo (.pcStep 7)]).queue = .pseudo (.pcStep 7) :: [] := ⟨rfl, rfl⟩
/-- AnAddressOutOfRangeIsABadOperand: the first address out of each range, and the last one in it. -/
theorem witness_address_range :
    Value.toWord none (.dec 1) = .ok 1#16 ∧
    (sending [(7, .ram8 someRam8)] [.call (.exec 7 [(.input, .dec 1), (.load, .dec 1), (.address, .dec 8)])]).queue =
      .call (.exec 7 [(.input, .dec 1), (.load, .dec 1), (.address, .dec 8)]) :: [] ∧
    Memory.find [(7, Instance.ram8 someRam8)] 7 = some (.ram8 someRam8) ∧
    Memory.find [(7, Instance.ram64 someRam64)] 7 = some (.ram64 someRam64) ∧
    (7 : Int) < 8 ∧ (63 : Int) < 64 ∧ (-1 : Int) < 0 ∧ (0 : Int) ≤ 63 ∧ (63 : Int) ≤ 63 :=
  ⟨rfl, rfl, rfl, rfl, by decide, by decide, by decide, by decide, by decide⟩
/-- EveryStepKeepsTheComponentTableCanonical, OnlyTheDriverChangesWhichComponentsExist and EveryCallReturnsExactlyOneResult: a
step of a canonical state by a call, and one by a construct call. -/
theorem witness_steps :
    (sending [(3, .dff O), (7, .bit O)] [recordTo 3 (.dff I)]).Inv ∧
    (∃ t, step (sending [(3, .dff O), (7, .bit O)] [recordTo 3 (.dff I)]) = .next t) ∧
    (∀ n c, recordTo 3 (.dff I) ≠ .construct n c) ∧ (∀ n, recordTo 3 (.dff I) ≠ .discard n) ∧
    (∀ k n v, recordTo 3 (.dff I) ≠ .call (.new k n v)) ∧
    (∃ t, step (sending [] [.construct 7 .pc]) = .next t) :=
  ⟨by unfold State.Inv; decide, ⟨_, rfl⟩, by simp [recordTo], by simp [recordTo], by simp [recordTo],
    ⟨_, rfl⟩⟩
/-- CanonicalTablesThatReadAlikeAreEqual. -/
theorem witness_canonical_table : Memory.wf [(3, .dff O), (7, .bit O)] = true ∧
    Memory.wf [(7, .bit O), (3, .dff O)] = false := by decide

end Sys2Proof.Tests
end

section
/-!
PROOFS. The family 00_scope.md: a sequential call sees its own component only (O39), and signed decimal words (O46).
-/

namespace Sys2Proof.Machine

/-! ## Isolation -/

/-- The two shapes of an operation's meaning: a combinational call returns one result fixed by its operands (00_scope.md
R12), and a sequential call is one tick, by a transition fixed by its operands (R13). -/
theorem exec_answers_or_ticks (i : Instr) :
    (∃ o, ∀ s, exec i s = .next (s.returns o)) ∨ (∃ f, ∀ s, exec i s = tick f s) := by
  cases i with
  | nand | not | and | or | nor | xor | and16 | mux | mux16 | mux8way16 | dmux | dmux8way | inc16 =>
    exact .inl ⟨_, fun _ => rfl⟩
  | dff | bit | register | ram8 | ram64 | pc => exact .inr ⟨_, fun _ => rfl⟩

/-- A tick of a component that answers a next state: the component has a transition, and the next state is that
transition's. -/
theorem tick_next_of_bound {f : Instance → Option (Output × Instance)} {s t : State} {n : Nat} {c : Instance}
    (hs : BoundTo s n c) (h : tick f s = .next t) :
    ∃ o c', f c = some (o, c') ∧ t = { s with components := Memory.put s.components n c' }.returns o := by
  obtain ⟨hbound, hfind⟩ := hs
  obtain ⟨n', d, o, c', hbound', hfind', hf, ht⟩ := tick_next h
  obtain rfl : n = n' := Option.some.inj (hbound.symm.trans hbound')
  obtain rfl : c = d := Option.some.inj (hfind.symm.trans hfind')
  exact ⟨o, c', hf, ht⟩

/-- Settles O39: the operands fix the result or the transition, and the transition is given the component alone. -/
theorem aSequentialCallDependsOnlyOnItsOwnComponent :
    Obligations.ASequentialCallDependsOnlyOnItsOwnComponent := by
  intro i s₁ s₂ t₁ n c h₁ h₂ h
  rcases exec_answers_or_ticks i with ⟨o, hi⟩ | ⟨f, hi⟩
  · rw [hi] at h
    cases h
    exact ⟨s₂.returns o, o, hi s₂, rfl, rfl, h₁.2.trans h₂.2.symm⟩
  · rw [hi] at h
    obtain ⟨o, c', hf, rfl⟩ := tick_next_of_bound h₁ h
    exact ⟨_, o, (hi s₂).trans (tick_of_bound h₂.1 h₂.2 hf), rfl, rfl, by simp⟩

/-! ## Signed decimal words -/

/-- The word of a signed decimal, of any size, has the value of R10. -/
theorem toNat_ofSigned (d : Int) : ((ofSigned d).toNat : Int) = d % 65536 := by
  have hnonneg : 0 ≤ d % 65536 := Int.emod_nonneg d (by decide)
  simpa [ofSigned, BitVec.toNat_ofInt] using hnonneg

theorem toWord_dec_of_range (last : Option Output) {d : Int} (h : -32768 ≤ d ∧ d ≤ 32767) :
    Value.toWord last (.dec d) = .ok (ofSigned d) := if_pos h

theorem toWord_dec_out_of_range (last : Option Output) {d : Int} (h : ¬(-32768 ≤ d ∧ d ≤ 32767)) :
    Value.toWord last (.dec d) = .error .badOperand := if_neg h

/-- Settles O46: in range a decimal is read as `ofSigned`, which is its two's complement. -/
theorem signedDecimalWordsAreTwosComplement : Obligations.SignedDecimalWordsAreTwosComplement := by
  intro last d
  constructor
  · intro hlow hhigh
    exact ⟨ofSigned d, toWord_dec_of_range last ⟨hlow, hhigh⟩, toNat_ofSigned d⟩
  · intro hout
    exact toWord_dec_out_of_range last (by omega)

end Sys2Proof.Machine
end

section
/-!
PROOFS. The family 10_state.md: the canonical table of components (O53, O54, O55), pure combinational calls (O23), what a
sequential call writes (O38), and construction (O41).
-/

namespace Sys2Proof.Machine

/-! ## The canonical table -/

/-- Settles O53. -/
theorem theStateAtResetIsCanonical : Obligations.TheStateAtResetIsCanonical :=
  (rfl : Memory.wf [] = true)

/-- A tick writes the table by one `put`. -/
theorem tick_keeps_inv {f : Instance → Option (Output × Instance)} {s t : State} (hs : s.Inv)
    (h : tick f s = .next t) : t.Inv := by
  obtain ⟨n, -, -, c', -, -, -, rfl⟩ := tick_next h
  exact wf_put s.components n c' hs

theorem exec_keeps_inv {i : Instr} {s t : State} (hs : s.Inv) (h : exec i s = .next t) : t.Inv := by
  rcases exec_answers_or_ticks i with ⟨o, hi⟩ | ⟨f, hi⟩
  · rw [hi] at h
    cases h
    exact hs
  · exact tick_keeps_inv hs (hi s ▸ h)

/-- Settles O54: a step puts a fresh component in, erases one, or makes one call, and each keeps the canonical form. -/
theorem everyStepKeepsTheComponentTableCanonical :
    Obligations.EveryStepKeepsTheComponentTableCanonical := by
  intro s t hs h
  obtain ⟨-, -, -, ⟨n, d, -, rfl⟩ | ⟨n, -, rfl⟩ | ⟨-, -, -, i, q, b, hi⟩⟩ := step_next h
  · exact wf_put s.components n d.fresh hs
  · exact wf_erase s.components n hs
  · have hcall : State.Inv { s with queue := q, bound := b } := hs
    exact exec_keeps_inv hcall hi

@[simp] theorem find_cons_same (n : Nat) (c : Instance) (m : Memory) : Memory.find ((n, c) :: m) n = some c :=
  if_pos rfl

theorem find_cons_other {n k : Nat} (c : Instance) (m : Memory) (h : n ≠ k) :
    Memory.find ((k, c) :: m) n = Memory.find m n :=
  if_neg h.symm

/-- The first name of a canonical table is the least one in use. -/
theorem le_of_find_cons {k n : Nat} {c d : Instance} {m : Memory} (hw : Memory.wf ((k, c) :: m) = true)
    (h : Memory.find ((k, c) :: m) n = some d) : k ≤ n := by
  obtain ⟨hk, -⟩ := (wf_cons k c m).mp hw
  by_contra hlt
  have hn : Above n ((k, c) :: m) :=
    List.forall_mem_cons.mpr ⟨by omega, fun p hp => Nat.lt_trans (by omega) (hk p hp)⟩
  simp [find_of_above hn] at h

/-- In a canonical table the entries after the first hold what the whole table does, but for the first name. -/
theorem find_tail {k : Nat} {c : Instance} {m : Memory} (hw : Memory.wf ((k, c) :: m) = true) (n : Nat) :
    Memory.find m n = if n = k then none else Memory.find ((k, c) :: m) n := by
  obtain ⟨hk, -⟩ := (wf_cons k c m).mp hw
  split
  · next heq => exact heq ▸ find_of_above hk
  · next hne => exact (find_cons_other c m hne).symm

/-- Settles O55: tables that read alike have the same least name, the same component under it, and, by induction, the same
entries after it. -/
theorem canonicalTablesThatReadAlikeAreEqual : Obligations.CanonicalTablesThatReadAlikeAreEqual := by
  intro m
  induction m with
  | nil =>
    rintro (_ | ⟨⟨k', c'⟩, m'⟩) - - h
    · rfl
    · simpa [Memory.find] using h k'
  | cons p m ih =>
    obtain ⟨k, c⟩ := p
    rintro (_ | ⟨⟨k', c'⟩, m'⟩) hw hw' h
    · simpa [Memory.find] using h k
    · have hle : k' ≤ k := le_of_find_cons hw' ((h k).symm.trans (find_cons_same k c m))
      have hge : k ≤ k' := le_of_find_cons hw ((h k').trans (find_cons_same k' c' m'))
      obtain rfl : k = k' := Nat.le_antisymm hge hle
      obtain rfl : c = c' := by simpa using h k
      have htail : m = m' :=
        ih m' ((wf_cons k c m).mp hw).2 ((wf_cons k c m').mp hw').2 fun n => by
          rw [find_tail hw, find_tail hw', h]
      rw [htail]

/-! ## What a call touches -/

/-- Settles O23: the operands alone fix the result, and the call does nothing but return it. -/
theorem combinationalCallsArePureAndTouchNothing :
    Obligations.CombinationalCallsArePureAndTouchNothing := by
  intro i h
  cases i with
  | nand | not | and | or | nor | xor | and16 | mux | mux16 | mux8way16 | dmux | dmux8way | inc16 =>
    exact ⟨_, fun _ => rfl⟩
  | dff | bit | register | ram8 | ram64 | pc => cases h

/-- The transition `f` is for components of kind `k` only, and leaves one of that kind. -/
def OnlyOfKind (k : Kind) (f : Instance → Option (Output × Instance)) : Prop :=
  ∀ c o c', f c = some (o, c') → c.kind = k ∧ c'.kind = k

/-- A sequential call is one tick, by a transition for components of its own kind only (R53). -/
theorem exec_ticks_of_kind {i : Instr} {k : Kind} (h : kindOfOp i.op = some k) :
    ∃ f, OnlyOfKind k f ∧ ∀ s, exec i s = tick f s := by
  cases i with
  | nand | not | and | or | nor | xor | and16 | mux | mux16 | mux8way16 | dmux | dmux8way | inc16 => cases h
  | dff | bit | register | ram8 | ram64 | pc =>
    cases h
    refine ⟨_, ?_, fun _ => rfl⟩
    rintro (_ | _) o c' ⟨⟩
    exact ⟨rfl, rfl⟩

/-- Settles O38: the call is one tick, whose one `put` leaves every other name as it was. -/
theorem aSequentialCallWritesOnlyItsOwnComponent :
    Obligations.ASequentialCallWritesOnlyItsOwnComponent := by
  intro i k s t hkind h
  obtain ⟨f, honly, hi⟩ := exec_ticks_of_kind hkind
  rw [hi] at h
  obtain ⟨n, c, o, c', hbound, hfind, hf, rfl⟩ := tick_next h
  obtain ⟨hc, hc'⟩ := honly c o c' hf
  exact ⟨n, c, c', o, ⟨hbound, hfind⟩, hc, hc', find_put_same _ n c', fun m hm => find_put_other _ c' hm,
    rfl, rfl, rfl⟩

/-! ## Construction -/

theorem ram8Words_fill (w : Word) : ram8Words (Eight.fill w) = List.replicate 8 w := rfl

theorem ram64Words_fill (w : Word) : ram64Words (Eight.fill (Eight.fill w)) = List.replicate 64 w := rfl

/-- What a construct call does: the fresh component is put under its name, and the call is taken from the queue. -/
theorem step_construct {s : State} {n : Nat} {c : Construction} {rest : List Stimulus}
    (h : s.queue = .construct n c :: rest) :
    step s = .next { s with queue := rest, components := Memory.put s.components n c.fresh } :=
  step_of_queue h

/-- Settles O41: the component put under the name is `c.fresh`, whose content R30 gives for each kind. -/
theorem constructingGivesTheInitialState : Obligations.ConstructingGivesTheInitialState := by
  intro s n c rest hqueue
  have hfresh : Memory.find (Memory.put s.components n c.fresh) n = some c.fresh := find_put_same _ n _
  refine ⟨_, step_construct hqueue, rfl, rfl, rfl, fun k hk => find_put_other _ _ hk, ?_, ?_, ?_, ?_, ?_, ?_⟩
  · rintro init rfl
    exact hfresh
  · rintro rfl
    exact hfresh
  · rintro rfl
    exact hfresh
  · rintro rfl
    exact ⟨_, hfresh, ram8Words_fill _⟩
  · rintro rfl
    exact ⟨_, hfresh, ram64Words_fill _⟩
  · rintro rfl
    exact hfresh

end Sys2Proof.Machine
end

section
/-!
PROOFS. The family 20_memory.md: calls with load = 0 (O37), and calls on two different components (O40).
-/

namespace Sys2Proof.Machine

/-! ## Calls with load = 0 -/

/-- The transition `f` leaves each component it is for as it was. -/
def KeepsContent (f : Instance → Option (Output × Instance)) : Prop :=
  ∀ c o c', f c = some (o, c') → c' = c

/-- Such a transition's tick puts back what stood under the name. -/
theorem tick_changes_nothing {f : Instance → Option (Output × Instance)} {s t : State} (hf : KeepsContent f)
    (h : tick f s = .next t) (k : Nat) : Memory.find t.components k = Memory.find s.components k := by
  obtain ⟨n, c, o, c', -, hfind, hc, rfl⟩ := tick_next h
  obtain rfl : c' = c := hf c o c' hc
  by_cases hk : k = n
  · subst hk
    exact (find_put_same _ k c').trans hfind.symm
  · exact find_put_other _ c' hk

/-- With load = 0 every child of a RAM tier gets load = 0, so children that keep their content then leave the tier as it
was. -/
theorem ramTier_load_zero {α : Type} {childTick : α → Word → Bit → Word × α} {input : Word}
    (hchild : ∀ c, (childTick c input false).2 = c) (children : Eight α) (high : Vec 3) :
    (ramTier childTick children input false high).2 = children := by
  refine Eight.eq_of_get_eq fun i => ?_
  obtain ⟨-, hget⟩ := ramTier_eq childTick children input false high
  rw [hget, ite_self, hchild]

theorem registerTick_load_zero (q input : Word) : (registerTick q input false).2 = q := by simp

theorem ram8Tick_load_zero (m : Eight Word) (input : Word) (a : Vec 3) : (ram8Tick m input false a).2 = m :=
  ramTier_load_zero (fun q => registerTick_load_zero q input) m a

theorem ram64Tick_load_zero (m : Eight (Eight Word)) (input : Word) (a : Vec 6) :
    (ram64Tick m input false a).2 = m :=
  ramTier_load_zero (fun c => ram8Tick_load_zero c input (lowOf a)) m (highOf a)

theorem pcTick_load_zero (p input : Word) (reset inc : Bit) : (pcTick p input false reset inc).2 = p :=
  registerTick_load_zero p _

theorem bitStep_load_zero (input : Bit) : KeepsContent (bitStep input false) := by
  rintro (_ | s) o c' ⟨⟩
  simp

theorem registerStep_load_zero (input : Word) : KeepsContent (registerStep input false) := by
  rintro (_ | _ | q) o c' ⟨⟩
  exact congrArg Instance.register (registerTick_load_zero q input)

theorem ram8Step_load_zero (input : Word) (a : Vec 3) : KeepsContent (ram8Step input false a) := by
  rintro (_ | _ | _ | m) o c' ⟨⟩
  exact congrArg Instance.ram8 (ram8Tick_load_zero m input a)

theorem ram64Step_load_zero (input : Word) (a : Vec 6) : KeepsContent (ram64Step input false a) := by
  rintro (_ | _ | _ | _ | m) o c' ⟨⟩
  exact congrArg Instance.ram64 (ram64Tick_load_zero m input a)

theorem pcStep_load_zero (input : Word) (reset inc : Bit) : KeepsContent (pcStep input false reset inc) := by
  rintro (_ | _ | _ | _ | _ | p) o c' ⟨⟩
  exact congrArg Instance.pc (pcTick_load_zero p input reset inc)

/-- Settles O37: each of the five calls is a tick by a transition that, with load = 0, keeps the component's content. -/
theorem callsWithLoadZeroChangeNoComponent : Obligations.CallsWithLoadZeroChangeNoComponent := by
  rintro s t i (⟨x, rfl⟩ | ⟨w, rfl⟩ | ⟨w, a, rfl⟩ | ⟨w, a, rfl⟩ | ⟨w, r, c, rfl⟩) h
  · exact tick_changes_nothing (bitStep_load_zero x) h
  · exact tick_changes_nothing (registerStep_load_zero w) h
  · exact tick_changes_nothing (ram8Step_load_zero w a) h
  · exact tick_changes_nothing (ram64Step_load_zero w a) h
  · exact tick_changes_nothing (pcStep_load_zero w r c) h

/-! ## Calls on two different components -/

/-- The call `i`, bound to the name `n` in the state `s`, completes in `t`, returns `o`, and leaves what stands under every
other name as it was. Nothing need stand under `n` when `i` is combinational. -/
def CallsAt (i : Instr) (n : Nat) (s : State) (o : Output) (t : State) : Prop :=
  exec i { s with bound := some n } = .next t ∧ t.outs = s.outs ++ [o] ∧
    ∀ k, k ≠ n → Memory.find t.components k = Memory.find s.components k

theorem callsAt_of_tick {i : Instr} {f : Instance → Option (Output × Instance)} {s : State} {n : Nat}
    {c c' : Instance} {o : Output} (hi : ∀ s, exec i s = tick f s) (hc : Memory.find s.components n = some c)
    (hf : f c = some (o, c')) :
    ∃ t, CallsAt i n s o t ∧ Memory.find t.components n = some c' :=
  ⟨_, ⟨(hi _).trans (tick_of_bound rfl hc hf), rfl, fun _ hk => find_put_other _ c' hk⟩, find_put_same _ n c'⟩

/-- A call that completes under `n` completes from every state with the same under `n`: it returns the same there and
leaves the same under `n`. -/
theorem exec_sees_only_its_name {i : Instr} {s t : State} {n : Nat}
    (h : exec i { s with bound := some n } = .next t) :
    ∃ o, CallsAt i n s o t ∧ ∀ s' : State, Memory.find s'.components n = Memory.find s.components n →
      ∃ t', CallsAt i n s' o t' ∧ Memory.find t'.components n = Memory.find t.components n := by
  rcases exec_answers_or_ticks i with ⟨o, hi⟩ | ⟨f, hi⟩
  · obtain rfl := Host.Outcome.next.inj ((hi _).symm.trans h)
    exact ⟨o, ⟨h, rfl, fun _ _ => rfl⟩, fun s' hs' => ⟨_, ⟨hi _, rfl, fun _ _ => rfl⟩, hs'⟩⟩
  · obtain ⟨n', c, o, c', hbound, hfind, hf, ht⟩ := tick_next ((hi _).symm.trans h)
    obtain rfl : n = n' := Option.some.inj hbound
    have hcalls : ∀ s' : State, Memory.find s'.components n = some c →
        ∃ t', CallsAt i n s' o t' ∧ Memory.find t'.components n = some c' :=
      fun s' hs' => callsAt_of_tick hi hs' hf
    obtain ⟨t₀, ⟨hexec, hrest⟩, hn⟩ := hcalls s hfind
    obtain rfl : t₀ = t := Host.Outcome.next.inj (hexec.symm.trans h)
    exact ⟨o, ⟨h, hrest⟩, fun s' hs' => hn ▸ hcalls s' (hs'.trans hfind)⟩

/-- Settles O40: the first call leaves what the second one sees as it was, and the second what the first one sees, so each
does the same when made in the other's place. -/
theorem callsOnDifferentComponentsCommute : Obligations.CallsOnDifferentComponentsCommute := by
  intro i j s t₁ t₂ n m hne hi hj
  obtain ⟨oi, ⟨-, ht₁outs, ht₁other⟩, hi'⟩ := exec_sees_only_its_name hi
  obtain ⟨oj, ⟨-, ht₂outs, ht₂other⟩, hj'⟩ := exec_sees_only_its_name hj
  obtain ⟨u₁, ⟨hu₁, hu₁outs, hu₁other⟩, hu₁m⟩ := hj' s (ht₁other m hne.symm).symm
  obtain ⟨u₂, ⟨hu₂, hu₂outs, hu₂other⟩, hu₂n⟩ := hi' u₁ (hu₁other n hne)
  refine ⟨u₁, u₂, oi, oj, hu₁, hu₂, by simp [ht₂outs, ht₁outs], by simp [hu₂outs, hu₁outs], fun k => ?_⟩
  by_cases hkn : k = n
  · subst hkn
    exact hu₂n.trans (ht₂other k hne).symm
  · by_cases hkm : k = m
    · subst hkm
      exact (hu₂other k hkn).trans hu₁m
    · calc Memory.find u₂.components k
        _ = Memory.find u₁.components k := hu₂other k hkn
        _ = Memory.find s.components k := hu₁other k hkm
        _ = Memory.find t₁.components k := (ht₁other k hkn).symm
        _ = Memory.find t₂.components k := (ht₂other k hkm).symm

end Sys2Proof.Machine
end

section
/-!
PROOFS. The family 30_encoding.md: the codec of records (O1, O2, O3, O4, O6, O7, O8), records at the step (O9, O10, O11,
O12), script lines and pseudo-operations (O47, O48, O49, O50, O51, O59), and the bit string of a result (O52).
-/

namespace Sys2Proof

/-! ## Operation fields -/

@[simp] theorem length_opField (op : Op) : op.field.length = 5 := by cases op <;> rfl

@[simp] theorem opOfRecord_opField_append (op : Op) (rest : List Bit) :
    opOfRecord (op.field ++ rest) = some op := by cases op <;> rfl

/-- Bits that name an operation are that operation's field, and write its number. -/
theorem ofField_eq_some {a b c d e : Bit} {op : Op} (h : Op.ofField a b c d e = some op) :
    op.field = [a, b, c, d, e] ∧ op.number = leadingNumber [a, b, c, d, e] := by
  unfold Op.ofField at h
  split at h <;> cases h <;> exact ⟨rfl, rfl⟩

theorem ofField_eq_none (a b c d e : Bit) :
    Op.ofField a b c d e = none ↔ 0x13 ≤ leadingNumber [a, b, c, d, e] := by
  revert a b c d e; decide

/-- A record that names an operation begins with that operation's field. -/
theorem opField_append_drop {r : List Bit} {op : Op} (h : opOfRecord r = some op) : op.field ++ r.drop 5 = r := by
  match r, h with
  | a :: b :: c :: d :: e :: rest, h => simp [(ofField_eq_some h).1]

theorem number_of_opOfRecord {r : List Bit} {op : Op} (h : opOfRecord r = some op) : op.number = leadingNumber r := by
  match r, h with
  | a :: b :: c :: d :: e :: _, h => exact (ofField_eq_some h).2

theorem opOfRecord_eq_none_iff {r : List Bit} (h : 5 ≤ r.length) : opOfRecord r = none ↔ 0x13 ≤ leadingNumber r := by
  match r, h with
  | a :: b :: c :: d :: e :: _, _ => exact ofField_eq_none a b c d e

theorem five_le_length_of_opOfRecord {r : List Bit} {op : Op} (h : opOfRecord r = some op) : 5 ≤ r.length := by
  rw [← opField_append_drop h]
  simp

theorem tableRecordLengths_number (op : Op) : tableRecordLengths.getD op.number 0 = op.recordLength := by
  cases op <;> rfl

theorem op_decodeFields (op : Op) (r : List Bit) : (decodeFields op r).op = op := by cases op <;> rfl

/-! ## Reading fields back -/

theorem vecField_append_right {n off : Nat} (before after : List Bit) (h : before.length ≤ off) :
    vecField n (before ++ after) off = vecField n after (off - before.length) :=
  ofLanes_congr fun j _ => by
    rw [List.getD_append_right _ _ _ _ (by omega), Nat.sub_add_comm h]

theorem bitField_append_right {off : Nat} (before after : List Bit) (h : before.length ≤ off) :
    bitField (before ++ after) off = bitField after (off - before.length) :=
  List.getD_append_right _ _ _ _ h

theorem vecField_lanes_append {n : Nat} (v : Vec n) (after : List Bit) : vecField n (lanes v ++ after) 0 = v :=
  vecField_append [] after v rfl

@[simp] theorem bitField_cons_zero (b : Bit) (r : List Bit) : bitField (b :: r) 0 = b := rfl

@[simp] theorem bitField_cons_succ (b : Bit) (r : List Bit) (k : Nat) :
    bitField (b :: r) (k + 1) = bitField r k := rfl

theorem vecField_cons_succ {n : Nat} (b : Bit) (r : List Bit) (k : Nat) :
    vecField n (b :: r) (k + 1) = vecField n r k := by
  simpa using vecField_append_right (n := n) (off := k + 1) [b] r (by simp)

/-- Each operand of a call is read back from its place in the call's record, whatever follows the record. -/
theorem decodeFields_encode_append (i : Instr) (rest : List Bit) : decodeFields i.op (encode i ++ rest) = i := by
  cases i <;>
    simp [encode, encodeFields, Instr.op, decodeFields, wordFields8, vecField_append_right, bitField_append_right,
      vecField_lanes_append, vecField_cons_succ]

/-! ## Writing fields back -/

theorem lanes_vecField_append_drop {n off stop : Nat} (r : List Bit) (h : stop ≤ r.length) (hn : off + n = stop) :
    lanes (vecField n r off) ++ r.drop stop = r.drop off := by
  subst hn
  rw [lanes_vecField r h, ← List.drop_drop, List.take_append_drop]

theorem bitField_cons_drop {off stop : Nat} (r : List Bit) (h : stop ≤ r.length) (hn : off + 1 = stop) :
    bitField r off :: r.drop stop = r.drop off := by
  subst hn
  rw [bitField, List.getD_eq_getElem _ _ h, List.cons_getElem_drop_succ]

/-- The operands read from a record, written again, are the record's own bits after the operation field. -/
theorem encodeFields_decodeFields (op : Op) (r : List Bit) (h : op.recordLength ≤ r.length) :
    encodeFields (decodeFields op r) ++ r.drop op.recordLength = r.drop 5 := by
  cases op <;> simp only [Op.recordLength] at h ⊢ <;>
    simp (disch := omega) [decodeFields, encodeFields, wordFields8, lanes_vecField_append_drop, bitField_cons_drop]

/-- The call read from the front of a bit string, written again, is the front of that string. -/
theorem encode_decodeFields {op : Op} {r : List Bit} (hop : opOfRecord r = some op) (h : op.recordLength ≤ r.length) :
    encode (decodeFields op r) ++ r.drop op.recordLength = r := by
  rw [encode, op_decodeFields, List.append_assoc, encodeFields_decodeFields op r h, opField_append_drop hop]

/-! ## The decoder -/

theorem recordShape (i : Instr) : Laws.RecordShape.Statement i := by
  cases i with
  | nand => exact Laws.RecordShape.nand _ _
  | not => exact Laws.RecordShape.not _
  | and => exact Laws.RecordShape.and _ _
  | or => exact Laws.RecordShape.or _ _
  | nor => exact Laws.RecordShape.nor _ _
  | xor => exact Laws.RecordShape.xor _ _
  | and16 => exact Laws.RecordShape.and16 _ _
  | mux => exact Laws.RecordShape.mux _ _ _
  | mux16 => exact Laws.RecordShape.mux16 _ _ _
  | mux8way16 => exact Laws.RecordShape.mux8way16 _ _
  | dmux => exact Laws.RecordShape.dmux _ _
  | dmux8way => exact Laws.RecordShape.dmux8way _ _
  | dff => exact Laws.RecordShape.dff _
  | bit => exact Laws.RecordShape.bit _ _
  | register => exact Laws.RecordShape.register _ _
  | ram8 => exact Laws.RecordShape.ram8 _ _ _
  | ram64 => exact Laws.RecordShape.ram64 _ _ _
  | pc => exact Laws.RecordShape.pc _ _ _ _
  | inc16 => exact Laws.RecordShape.inc16 _

/-- A record is well formed when its operation field names an operation and it has that operation's length. -/
theorem recordWellFormed_iff (r : List Bit) :
    recordWellFormed r = true ↔ ∃ op, opOfRecord r = some op ∧ r.length = op.recordLength := by
  cases hop : opOfRecord r with
  | none => simp [recordWellFormed, opIsAssigned, hop]
  | some op =>
    simp [recordWellFormed, hasOpField, opIsAssigned, lengthFits, Config.opFieldWidth, hop,
      five_le_length_of_opOfRecord hop]

theorem opOfRecord_encode (i : Instr) : opOfRecord (encode i) = some i.op := (recordShape i).2

theorem length_encode (i : Instr) : (encode i).length = i.op.recordLength := by
  obtain ⟨op, hop, hlen⟩ := (recordWellFormed_iff (encode i)).mp (recordShape i).1
  obtain rfl : i.op = op := Option.some.inj ((opOfRecord_encode i).symm.trans hop)
  exact hlen

theorem decodeFront_of_op {r : List Bit} {op : Op} (hop : opOfRecord r = some op) :
    decodeFront r = if r.length < op.recordLength then .error .badLength
      else .ok (decodeFields op r, r.drop op.recordLength) := by
  have h5 := five_le_length_of_opOfRecord hop
  simp [decodeFront, hop, Config.opFieldWidth, Nat.not_lt.mpr h5]

theorem decode_reserved {r : List Bit} (h : 5 ≤ r.length) (hop : opOfRecord r = none) :
    decode r = .error .reservedOp := by
  simp [decode, decodeFront, hop, Config.opFieldWidth, Nat.not_lt.mpr h]

/-- A record of its operation's length is read as the call of its fields. -/
theorem decode_of_length_eq {r : List Bit} {op : Op} (hop : opOfRecord r = some op) (h : r.length = op.recordLength) :
    decode r = .ok (decodeFields op r) := by
  simp [decode, decodeFront_of_op hop, ← h]

/-- A shorter record ends too early, and a longer one leaves bits over. -/
theorem decode_of_length_ne {r : List Bit} {op : Op} (hop : opOfRecord r = some op) (h : r.length ≠ op.recordLength) :
    decode r = .error .badLength := by
  rw [decode, decodeFront_of_op hop]
  rcases Nat.lt_or_gt_of_ne h with hlt | hgt
  · rw [if_pos hlt]
  · rw [if_neg (Nat.not_lt.mpr (Nat.le_of_lt hgt)), List.drop_eq_getElem_cons hgt]

/-- If a record decodes, its field names an operation, it has that operation's length, and the call is that of its
fields. -/
theorem decode_ok {r : List Bit} {i : Instr} (h : decode r = .ok i) :
    ∃ op, opOfRecord r = some op ∧ r.length = op.recordLength ∧ i = decodeFields op r := by
  cases hop : opOfRecord r with
  | none =>
    have hbad : ∃ e, decode r = .error e := by
      by_cases h5 : 5 ≤ r.length
      · exact ⟨_, decode_reserved h5 hop⟩
      · simp [decode, decodeFront, Config.opFieldWidth, Nat.not_le.mp h5]
    obtain ⟨e, he⟩ := hbad
    cases he.symm.trans h
  | some op =>
    by_cases hlen : r.length = op.recordLength
    · exact ⟨op, rfl, hlen, Except.ok.inj (h.symm.trans (decode_of_length_eq hop hlen))⟩
    · cases (decode_of_length_ne hop hlen).symm.trans h

/-- Settles O1: the record has its operation's field and length, and each operand is read back from where it was written. -/
theorem decodingTheRecordOfACallGivesTheCall : Obligations.DecodingTheRecordOfACallGivesTheCall := by
  intro i
  have hread : decodeFields i.op (encode i) = i := by simpa using decodeFields_encode_append i []
  rw [decode_of_length_eq (opOfRecord_encode i) (length_encode i), hread]

/-- Settles O2: the operands read from the record, written again, are its bits, and nothing is left over. -/
theorem aDecodedRecordIsTheRecordOfItsCall : Obligations.ADecodedRecordIsTheRecordOfItsCall := by
  intro r i h
  obtain ⟨op, hop, hlen, rfl⟩ := decode_ok h
  simpa [← hlen] using encode_decodeFields hop hlen.ge

/-- Settles O3: the operation field fixes the record's length, so the reader stops where the record ends. -/
theorem readingFromTheFrontTakesExactlyOneRecord : Obligations.ReadingFromTheFrontTakesExactlyOneRecord := by
  intro i rest
  constructor
  · have hop : opOfRecord (encode i ++ rest) = some i.op := by simp [encode]
    rw [decodeFront_of_op hop, ← length_encode i, if_neg (by simp), decodeFields_encode_append, List.drop_left]
  · rw [length_encode, ← number_of_opOfRecord (opOfRecord_encode i), tableRecordLengths_number]

/-- Settles O4: the three cases are no operation, an operation with another length, and one with its own. -/
theorem recordsAreRefusedExactlyForFieldOrLength : Obligations.RecordsAreRefusedExactlyForFieldOrLength := by
  intro r h5
  cases hop : opOfRecord r with
  | none =>
    have hnum := (opOfRecord_eq_none_iff h5).mp hop
    exact ⟨fun _ => decode_reserved h5 hop, fun hlt => absurd hnum (Nat.not_le.mpr hlt),
      fun hlt => absurd hnum (Nat.not_le.mpr hlt)⟩
  | some op =>
    have hnum := number_of_opOfRecord hop
    rw [← hnum, tableRecordLengths_number]
    refine ⟨fun hge => ?_, fun _ hne => decode_of_length_ne hop hne, fun _ heq => ?_⟩
    · rw [hnum, ← opOfRecord_eq_none_iff h5, hop] at hge
      cases hge
    · exact ⟨_, decode_of_length_eq hop heq, by rw [op_decodeFields]⟩

/-- Settles O7: each is the record that `encode` writes for the call. -/
theorem ramAndPcRecordsHaveTheTablesLayout : Obligations.RamAndPcRecordsHaveTheTablesLayout := by
  refine ⟨fun input load a => ?_, fun input load a => ?_, fun input load reset inc => ?_⟩
  · simpa [encode, encodeFields, Instr.op, Op.field] using decodingTheRecordOfACallGivesTheCall (.ram8 input load a)
  · simpa [encode, encodeFields, Instr.op, Op.field] using decodingTheRecordOfACallGivesTheCall (.ram64 input load a)
  · simpa [encode, encodeFields, Instr.op, Op.field] using decodingTheRecordOfACallGivesTheCall (.pc input load reset inc)

/-- Settles O6: the bits written out are those that `encode` writes for each call. -/
theorem recordsWrittenFromTheTableDecode : Obligations.RecordsWrittenFromTheTableDecode :=
  ⟨decodingTheRecordOfACallGivesTheCall (.dmux8way true 0b011#3),
    decodingTheRecordOfACallGivesTheCall (.register 0x8285#16 true),
    decodingTheRecordOfACallGivesTheCall (.ram8 0x2B67#16 true 1#3),
    decodingTheRecordOfACallGivesTheCall (.ram64 0x2B67#16 true 9#6),
    decodingTheRecordOfACallGivesTheCall (.pc 0x0020#16 false false true)⟩

theorem leadingNumber_opFieldOfNumber : ∀ k, k < 0x13 → leadingNumber (opFieldOfNumber k) = k := by decide

theorem opFieldOfNumber_number (op : Op) : opFieldOfNumber op.number = op.field := by cases op <;> rfl

/-- Each number below 0x13 is an operation's. -/
theorem exists_op_of_number {k : Nat} (hk : k < 0x13) : ∃ op : Op, op.number = k := by
  have hnum := leadingNumber_opFieldOfNumber k hk
  cases hop : opOfRecord (opFieldOfNumber k) with
  | none =>
    have hge := (opOfRecord_eq_none_iff (by simp [opFieldOfNumber])).mp hop
    omega
  | some op => exact ⟨op, (number_of_opOfRecord hop).trans hnum⟩

/-- The host's word of an operation's row is a record with that operation's field and length. -/
theorem recordOfTableWord_number (op : Op) :
    opOfRecord (recordOfTableWord op.recordLength op.number) = some op ∧
    (recordOfTableWord op.recordLength op.number).length = op.recordLength := by
  have hlow : op.number % 2 ^ op.recordLength % 32 = op.number := by cases op <;> rfl
  have hop : opOfRecord op.field = some op := by simpa using opOfRecord_opField_append op []
  have h5 := Laws.RecordShape.five_le_recordLength op
  simp only [recordOfTableWord, hlow, opFieldOfNumber_number, hop]
  refine ⟨opOfRecord_opField_append op _, ?_⟩
  simp only [List.length_append, length_opField, List.length_map, List.length_range]
  omega

/-- Settles O8: the word of a row is a record of that row's operation. -/
theorem tableWordsNameTheirOperation : Obligations.TableWordsNameTheirOperation := by
  intro k hk
  obtain ⟨op, rfl⟩ := exists_op_of_number hk
  obtain ⟨hop, hlen⟩ := recordOfTableWord_number op
  refine ⟨_, ?_, congrArg Op.number (op_decodeFields op (recordOfTableWord op.recordLength op.number))⟩
  rw [tableRecordLengths_number, decodeTableWord, decode_of_length_eq hop hlen]

end Sys2Proof

namespace Sys2Proof.Machine

/-! ## Records at the step -/

theorem runRecord_of_reservedOp {bits : List Bit} (binding : Option Nat) (s : State)
    (h : decode bits = .error .reservedOp) : runRecord bits binding s = .refused .reservedOp := by
  simp [runRecord, h]

theorem runRecord_of_badLength {bits : List Bit} (binding : Option Nat) (s : State)
    (h : decode bits = .error .badLength) : runRecord bits binding s = .refused .badLength := by
  simp [runRecord, h]

/-- Settles O9: the step runs the record with its own binding, and the record decodes. -/
theorem aStepRunsTheDecodedCall : Obligations.AStepRunsTheDecodedCall := by
  intro s bits binding rest i hq hi
  rw [step_of_queue hq]
  exact runRecord_of_decode hi

/-- Settles O10: the step decodes the record before anything else, and the decoder's refusal is the step's. -/
theorem aStepRefusesReservedAndIllSizedRecords : Obligations.AStepRefusesReservedAndIllSizedRecords := by
  intro s bits binding rest hq h5
  obtain ⟨hreserved, hlength, -⟩ := recordsAreRefusedExactlyForFieldOrLength bits h5
  rw [step_of_queue hq]
  exact ⟨fun hnum => runRecord_of_reservedOp _ _ (hreserved hnum),
    fun hnum hlen => runRecord_of_badLength _ _ (hlength hnum hlen)⟩

/-- Settles O11: the call's transition is for components of its own kind only, and none is bound. -/
theorem aSequentialCallNeedsAComponentOfItsKind : Obligations.ASequentialCallNeedsAComponentOfItsKind := by
  intro i k s hkind hnone
  obtain ⟨f, honly, hi⟩ := exec_ticks_of_kind hkind
  rw [hi]
  refine tick_refused fun n c hbound hfind => Option.eq_none_iff_forall_ne_some.mpr ?_
  rintro ⟨o, c'⟩ hf
  exact hnone n c ⟨hbound, hfind⟩ (honly c o c' hf).1

/-- A sequential call completes on a component of its kind. -/
theorem exec_completes_of_kind {i : Instr} {s : State} {n : Nat} {c : Instance} (hkind : kindOfOp i.op = some c.kind)
    (hs : BoundTo s n c) : ∃ t, exec i s = .next t := by
  obtain ⟨hbound, hfind⟩ := hs
  cases i with
  | nand | not | and | or | nor | xor | and16 | mux | mux16 | mux8way16 | dmux | dmux8way | inc16 => cases hkind
  | dff | bit | register | ram8 | ram64 | pc =>
    cases c <;> cases hkind
    exact ⟨_, tick_of_bound hbound hfind rfl⟩

/-- What the boundary asks of the binding of a record whose operation is `op`. -/
def bindingFits (s : State) (binding : Option Nat) (op : Op) : Prop :=
  ∀ k, kindOfOp op = some k → ∃ n, binding = some n ∧ kindOfName s n = some k

theorem acceptsRecord_iff (s : State) (bits : List Bit) (binding : Option Nat) :
    acceptsRecord s bits binding = true ↔
      ∃ op, opOfRecord bits = some op ∧ bits.length = op.recordLength ∧ bindingFits s binding op := by
  rw [acceptsRecord, Bool.and_eq_true, recordWellFormed_iff]
  cases hop : opOfRecord bits with
  | none => simp
  | some op =>
    cases hk : kindOfOp op with
    | none => simp [hk, bindingFits]
    | some k => cases binding <;> simp [hk, bindingFits, kindOfName]

/-- A call completes exactly when its operation needs no component or one of its kind is bound. -/
theorem exec_completes_iff (i : Instr) (s : State) (binding : Option Nat) :
    (∃ t, exec i { s with bound := binding } = .next t) ↔ bindingFits s binding i.op := by
  cases hkind : kindOfOp i.op with
  | none =>
    obtain ⟨o, ho⟩ := combinationalCallsArePureAndTouchNothing i hkind
    have hfits : bindingFits s binding i.op := fun k hk => by cases hkind.symm.trans hk
    exact iff_of_true ⟨_, ho _⟩ hfits
  | some k =>
    constructor
    · rintro ⟨t, ht⟩ k' hk'
      obtain ⟨n, c, -, -, ⟨hbound, hfind⟩, hc, -⟩ := aSequentialCallWritesOnlyItsOwnComponent i k' _ t hk' ht
      exact ⟨n, hbound, Option.map_eq_some_iff.mpr ⟨c, hfind, hc⟩⟩
    · intro hfits
      obtain ⟨n, rfl, hn⟩ := hfits k hkind
      obtain ⟨c, hfind, rfl⟩ := Option.map_eq_some_iff.mp hn
      exact exec_completes_of_kind hkind ⟨rfl, hfind⟩

/-- Settles O12: the step completes when the record decodes and its call completes, which asks what the boundary asks. -/
theorem anAcceptedRecordAlwaysCompletes : Obligations.AnAcceptedRecordAlwaysCompletes := by
  intro s bits binding rest hq
  rw [step_of_queue hq, acceptsRecord_iff]
  constructor
  · rintro ⟨t, ht⟩
    obtain ⟨i, hi, hexec⟩ := runRecord_next ht
    obtain ⟨op, hop, hlen, rfl⟩ := decode_ok hi
    have hfits := (exec_completes_iff _ _ _).mp ⟨t, hexec⟩
    rw [op_decodeFields] at hfits
    exact ⟨op, hop, hlen, hfits⟩
  · rintro ⟨op, hop, hlen, hfits⟩
    rw [← op_decodeFields op bits] at hfits
    obtain ⟨t, ht⟩ := (exec_completes_iff _ { s with queue := rest } binding).mpr hfits
    exact ⟨t, (runRecord_of_decode (decode_of_length_eq hop hlen)).trans ht⟩

/-! ## What a line assembles to -/

theorem fieldValue_cons (p : Field × Value) (fs : List (Field × Value)) (f : Field) :
    fieldValue (p :: fs) f = if p.1 = f then .ok p.2 else fieldValue fs f := by
  unfold fieldValue
  by_cases h : p.1 = f <;> simp [h]

/-- Among fields given once, the value of a field does not depend on their order. -/
theorem fieldValue_perm {fs gs : List (Field × Value)} (hp : fs.Perm gs) (hn : (fs.map Prod.fst).Nodup) (f : Field) :
    fieldValue fs f = fieldValue gs f := by
  induction hp with
  | nil => rfl
  | cons p _ ih => simp only [fieldValue_cons, ih (List.nodup_cons.mp hn).2]
  | swap p q fs =>
    have hne : q.1 ≠ p.1 := by
      rw [List.map_cons, List.map_cons, List.nodup_cons, List.mem_cons, not_or] at hn
      exact hn.1.1
    simp only [fieldValue_cons]
    by_cases hq : q.1 = f
    · simp [hq, show p.1 ≠ f from fun hp => hne (hq.trans hp.symm)]
    · simp [hq]
  | trans hfg _ ih₁ ih₂ => exact (ih₁ hn).trans (ih₂ ((hfg.map Prod.fst).nodup_iff.mp hn))

theorem nodup_opFields (op : Op) : (opFields op).Nodup := by cases op <;> decide

theorem fieldsGivenOnce_of_perm {op : Op} {fs gs : List (Field × Value)} (hp : fs.Perm gs)
    (hgs : gs.map Prod.fst = opFields op) : fieldsGivenOnce op fs = true := by
  have hnames : (fs.map Prod.fst).Perm (opFields op) := hgs ▸ hp.map Prod.fst
  have hlen : fs.length = (opFields op).length := by simpa using hnames.length_eq
  have hall : ∀ f ∈ opFields op, f ∈ fs.map Prod.fst := fun f hf => hnames.mem_iff.mpr hf
  rw [fieldsGivenOnce, Bool.and_eq_true, beq_iff_eq, List.all_eq_true]
  exact ⟨hlen, fun f hf => List.contains_iff_mem.mpr (hall f hf)⟩

/-- A line that gives its operation's fields in any order assembles as in the table's order. -/
theorem assemble_of_perm {last : Option Output} {op : Op} {fs gs : List (Field × Value)} (hp : fs.Perm gs)
    (hgs : gs.map Prod.fst = opFields op) : assemble last op fs = assembleFields last gs op := by
  have hn : (fs.map Prod.fst).Nodup := (hp.map Prod.fst).nodup_iff.mpr (hgs ▸ nodup_opFields op)
  have hvalue : fieldValue fs = fieldValue gs := funext fun f => fieldValue_perm hp hn f
  have hbit : lineBit last fs = lineBit last gs := by unfold lineBit; rw [hvalue]
  have hword : lineWord last fs = lineWord last gs := by unfold lineWord; rw [hvalue]
  have hvec : ∀ n, lineVec n fs = lineVec n gs := fun n => by unfold lineVec; rw [hvalue]
  rw [assemble, if_pos (fieldsGivenOnce_of_perm hp hgs)]
  cases op <;> simp only [assembleFields, hbit, hword, hvec]

@[simp] theorem ok_bind {ε α β : Type} (x : α) (f : α → Except ε β) : (Except.ok x >>= f) = f x := rfl

@[simp] theorem error_bind {ε α β : Type} (e : ε) (f : α → Except ε β) : (Except.error e >>= f) = .error e := rfl

section Rows

variable {last : Option Output} {fs : List (Field × Value)}

@[simp] theorem lineBit_cons (p : Field × Value) (f : Field) :
    lineBit last (p :: fs) f = if p.1 = f then Value.toBit last p.2 else lineBit last fs f := by
  rw [lineBit, fieldValue_cons, apply_ite (Except.bind · _)]
  rfl

@[simp] theorem lineWord_cons (p : Field × Value) (f : Field) :
    lineWord last (p :: fs) f = if p.1 = f then Value.toWord last p.2 else lineWord last fs f := by
  rw [lineWord, fieldValue_cons, apply_ite (Except.bind · _)]
  rfl

@[simp] theorem lineVec_cons (n : Nat) (p : Field × Value) (f : Field) :
    lineVec n (p :: fs) f = if p.1 = f then Value.toVec n p.2 else lineVec n fs f := by
  rw [lineVec, fieldValue_cons, apply_ite (Except.bind · _)]
  rfl

theorem assemble_bit {vi vl : Value} {input load : Bit} (hp : fs.Perm [(.input, vi), (.load, vl)])
    (hi : Value.toBit last vi = .ok input) (hl : Value.toBit last vl = .ok load) :
    assemble last .bit fs = .ok (.bit input load) :=
  (assemble_of_perm hp rfl).trans (by simp [assembleFields, hi, hl])

theorem assemble_register {vi vl : Value} {input : Word} {load : Bit} (hp : fs.Perm [(.input, vi), (.load, vl)])
    (hi : Value.toWord last vi = .ok input) (hl : Value.toBit last vl = .ok load) :
    assemble last .register fs = .ok (.register input load) :=
  (assemble_of_perm hp rfl).trans (by simp [assembleFields, hi, hl])

theorem assemble_ram8 {vi vl va : Value} {input : Word} {load : Bit} {a : Vec 3}
    (hp : fs.Perm [(.input, vi), (.load, vl), (.address, va)])
    (hi : Value.toWord last vi = .ok input) (hl : Value.toBit last vl = .ok load) (ha : Value.toVec 3 va = .ok a) :
    assemble last .ram8 fs = .ok (.ram8 input load a) :=
  (assemble_of_perm hp rfl).trans (by simp [assembleFields, hi, hl, ha])

theorem assemble_ram64 {vi vl va : Value} {input : Word} {load : Bit} {a : Vec 6}
    (hp : fs.Perm [(.input, vi), (.load, vl), (.address, va)])
    (hi : Value.toWord last vi = .ok input) (hl : Value.toBit last vl = .ok load) (ha : Value.toVec 6 va = .ok a) :
    assemble last .ram64 fs = .ok (.ram64 input load a) :=
  (assemble_of_perm hp rfl).trans (by simp [assembleFields, hi, hl, ha])

theorem assemble_ram8_bad_address {vi vl va : Value} {input : Word} {load : Bit} {r : Refusal}
    (hi : Value.toWord last vi = .ok input) (hl : Value.toBit last vl = .ok load)
    (ha : Value.toVec 3 va = .error r) :
    assemble last .ram8 [(.input, vi), (.load, vl), (.address, va)] = .error r :=
  (assemble_of_perm (.refl _) rfl).trans (by simp [assembleFields, hi, hl, ha])

theorem assemble_ram64_bad_address {vi vl va : Value} {input : Word} {load : Bit} {r : Refusal}
    (hi : Value.toWord last vi = .ok input) (hl : Value.toBit last vl = .ok load)
    (ha : Value.toVec 6 va = .error r) :
    assemble last .ram64 [(.input, vi), (.load, vl), (.address, va)] = .error r :=
  (assemble_of_perm (.refl _) rfl).trans (by simp [assembleFields, hi, hl, ha])

theorem assemble_pc {vi vl vr vn : Value} {input : Word} {load reset inc : Bit}
    (hp : fs.Perm [(.input, vi), (.load, vl), (.reset, vr), (.inc, vn)])
    (hi : Value.toWord last vi = .ok input) (hl : Value.toBit last vl = .ok load)
    (hr : Value.toBit last vr = .ok reset) (hn : Value.toBit last vn = .ok inc) :
    assemble last .pc fs = .ok (.pc input load reset inc) :=
  (assemble_of_perm hp rfl).trans (by simp [assembleFields, hi, hl, hr, hn])

theorem assemble_inc16 {vv : Value} {v : Word} (hp : fs.Perm [(.v, vv)]) (hv : Value.toWord last vv = .ok v) :
    assemble last .inc16 fs = .ok (.inc16 v) :=
  (assemble_of_perm hp rfl).trans (by simp [assembleFields, hv])

end Rows

/-- Settles O59: a line in any order assembles as in the table's order, and there each field is found in its place. -/
theorem aLineOfTheTablesFieldsAssemblesToItsCall : Obligations.ALineOfTheTablesFieldsAssemblesToItsCall := by
  intro last fs
  refine ⟨?not, ?gates, ?and16, ?mux, ?mux16, ?mux8way16, ?dmux, ?dmux8way, ?dff, ?bit, ?register, ?ram8, ?ram64,
    ?pc, ?inc16⟩
  case not =>
    intro vx x hx hp
    rw [assemble_of_perm hp rfl]
    simp [assembleFields, hx]
  case gates =>
    intro vx vy x y hx hy hp
    refine ⟨?_, ?_, ?_, ?_, ?_⟩ <;> rw [assemble_of_perm hp rfl] <;> simp [assembleFields, hx, hy]
  case and16 =>
    intro va vb a b ha hb hp
    rw [assemble_of_perm hp rfl]
    simp [assembleFields, ha, hb]
  case mux =>
    intro vx vy vs x y sel hx hy hs hp
    rw [assemble_of_perm hp rfl]
    simp [assembleFields, hx, hy, hs]
  case mux16 =>
    intro va vb vs a b sel ha hb hs hp
    rw [assemble_of_perm hp rfl]
    simp [assembleFields, ha, hb, hs]
  case mux8way16 =>
    intro e vs w sel3 h0 h1 h2 h3 h4 h5 h6 h7 hs hp
    rw [assemble_of_perm hp rfl]
    simp [assembleFields, h0, h1, h2, h3, h4, h5, h6, h7, hs]
  case dmux =>
    intro vi vs input sel hi hs hp
    rw [assemble_of_perm hp rfl]
    simp [assembleFields, hi, hs]
  case dmux8way =>
    intro vi vs input sel3 hi hs hp
    rw [assemble_of_perm hp rfl]
    simp [assembleFields, hi, hs]
  case dff =>
    intro vi input hi hp
    rw [assemble_of_perm hp rfl]
    simp [assembleFields, hi]
  case bit => exact fun _ _ _ _ hi hl hp => assemble_bit hp hi hl
  case register => exact fun _ _ _ _ hi hl hp => assemble_register hp hi hl
  case ram8 => exact fun _ _ _ _ _ _ hi hl ha hp => assemble_ram8 hp hi hl ha
  case ram64 => exact fun _ _ _ _ _ _ hi hl ha hp => assemble_ram64 hp hi hl ha
  case pc => exact fun _ _ _ _ _ _ _ _ hi hl hr hn hp => assemble_pc hp hi hl hr hn
  case inc16 => exact fun _ _ hv hp => assemble_inc16 hp hv

/-! ## Script lines at the step -/

/-- A script line's record is read back as the call the line assembled to. -/
theorem runRecord_encode (i : Instr) (binding : Option Nat) (s : State) :
    runRecord (encode i) binding s = exec i { s with bound := binding } :=
  runRecord_of_decode (decodingTheRecordOfACallGivesTheCall i)

theorem runCall_op {s : State} {op : Op} {fields : List (Field × Value)} {i : Instr}
    (h : assemble s.lastOut op fields = .ok i) : runCall (.op op fields) s = exec i { s with bound := none } := by
  simp [runCall, h, runRecord_encode]

theorem runCall_exec {s : State} {n : Nat} {c : Instance} {fields : List (Field × Value)} {i : Instr}
    (hfind : Memory.find s.components n = some c) (h : assemble s.lastOut c.kind.op fields = .ok i) :
    runCall (.exec n fields) s = exec i { s with bound := some n } := by
  simp [runCall, hfind, h, runRecord_encode]

theorem step_opLine {s : State} {op : Op} {fields : List (Field × Value)} {rest : List Stimulus} {i : Instr}
    (hq : s.queue = .call (.op op fields) :: rest) (h : assemble s.lastOut op fields = .ok i) :
    step s = exec i { s with queue := rest, bound := none } := by
  rw [step_of_queue hq]
  exact runCall_op h

theorem step_execLine {s : State} {n : Nat} {c : Instance} {fields : List (Field × Value)} {rest : List Stimulus}
    {i : Instr} (hq : s.queue = .call (.exec n fields) :: rest) (hfind : Memory.find s.components n = some c)
    (h : assemble s.lastOut c.kind.op fields = .ok i) :
    step s = exec i { s with queue := rest, bound := some n } := by
  rw [step_of_queue hq]
  exact runCall_exec hfind h

theorem step_execLine_refused {s : State} {n : Nat} {c : Instance} {fields : List (Field × Value)}
    {rest : List Stimulus} {r : Refusal} (hq : s.queue = .call (.exec n fields) :: rest)
    (hfind : Memory.find s.components n = some c) (h : assemble s.lastOut c.kind.op fields = .error r) :
    step s = .refused r := by
  rw [step_of_queue hq]
  simp [runStimulus, runCall, hfind, h]

/-- Settles O47: the record a line is written as decodes to the call it assembled to. -/
theorem aScriptLineRunsTheCallItAssembles : Obligations.AScriptLineRunsTheCallItAssembles :=
  fun _ _ _ _ => ⟨fun _ hq h => step_opLine hq h, fun _ _ hq hfind h => step_execLine hq hfind h⟩

/-! ## Construction by a `new` line -/

theorem step_new {s : State} {k : Kind} {n : Nat} {init : Option Value} {rest : List Stimulus} {c : Construction}
    (hq : s.queue = .call (.new k n init) :: rest) (h : assembleNew s.lastOut k init = .ok c) :
    step s = .next { s with queue := rest, components := Memory.put s.components n c.fresh } := by
  rw [step_of_queue hq]
  simp [runStimulus, runCall, construct, h]

theorem step_new_refused {s : State} {k : Kind} {n : Nat} {init : Option Value} {rest : List Stimulus} {r : Refusal}
    (hq : s.queue = .call (.new k n init) :: rest) (h : assembleNew s.lastOut k init = .error r) :
    step s = .refused r := by
  rw [step_of_queue hq]
  simp [runStimulus, runCall, h]

theorem assembleNew_none (last : Option Output) (k : Kind) : assembleNew last k none = .ok k.construction := by
  cases k <;> rfl

theorem assembleNew_dff {last : Option Output} {v : Value} {z : Bit} (h : Value.toBit last v = .ok z) :
    assembleNew last .dff (some v) = .ok (.dff z) := by
  simp [assembleNew, h, Except.map]

/-- Only a DFF takes `init`. -/
theorem assembleNew_some_refused (last : Option Output) {k : Kind} (v : Value) (hk : k ≠ .dff) :
    assembleNew last k (some v) = .error .badOperand := by
  cases k with
  | dff => exact absurd rfl hk
  | bit | register | ram8 | ram64 | pc => rfl

theorem kind_fresh_construction (k : Kind) : k.construction.fresh.kind = k := by cases k <;> rfl

/-- Settles O48: the component put under the name is the fresh one of the construct call the line assembles to. -/
theorem aNewLineConstructsWithTheGivenInit : Obligations.ANewLineConstructsWithTheGivenInit := by
  intro s n rest k v z
  refine ⟨fun hq => ?_, fun hq hv => ?_, fun _ hq => ?_, fun hk hq => ?_⟩
  · exact ⟨_, step_new hq (assembleNew_none _ _), find_put_same _ _ _⟩
  · exact ⟨_, step_new hq (assembleNew_dff hv), find_put_same _ _ _⟩
  · exact ⟨_, step_new hq (assembleNew_none _ _), by simp [kindOfName, kind_fresh_construction]⟩
  · exact step_new_refused hq (assembleNew_some_refused _ v hk)

/-! ## Pseudo-operations -/

/-- A pseudo-operation makes the call of its first line, and leaves its other lines next in the queue. -/
theorem step_pseudo {s : State} {p : Pseudo} {rest : List Stimulus} {c : Instance} {fields : List (Field × Value)}
    {lines : List Call} {i : Instr} (hq : s.queue = .pseudo p :: rest)
    (hfind : Memory.find s.components p.target = some c) (hallows : p.allows c.kind = true)
    (hexpand : p.expand = (.exec p.target fields, lines)) (h : assemble s.lastOut c.kind.op fields = .ok i) :
    step s = exec i { s with queue := lines.map Stimulus.call ++ rest, bound := some p.target } := by
  rw [step_of_queue hq]
  simp only [runStimulus, runPseudo, hfind, hallows, hexpand, if_true]
  exact runCall_exec hfind h

/-- Settles O49: each allowed pseudo-operation expands to one line, which assembles to the call. -/
theorem pseudoOperationsAreTheCallsTheyExpandTo : Obligations.PseudoOperationsAreTheCallsTheyExpandTo := by
  intro s n rest v k w z after
  refine ⟨fun q hfind => ?bit, fun q hfind => ?register, fun m a hfind ha => ?ram8, fun m a hfind ha => ?ram64,
    fun p hfind => ?pc⟩
  case bit =>
    exact ⟨fun hq hv => step_pseudo hq hfind rfl rfl (assemble_bit (.refl _) hv rfl),
      fun hq => step_pseudo hq hfind rfl rfl (assemble_bit (.refl _) rfl rfl)⟩
  case register =>
    exact ⟨fun hq hv => step_pseudo hq hfind rfl rfl (assemble_register (.refl _) hv rfl),
      fun hq => step_pseudo hq hfind rfl rfl (assemble_register (.refl _) rfl rfl)⟩
  case ram8 =>
    exact ⟨fun hq hv => step_pseudo hq hfind rfl rfl (assemble_ram8 (.refl _) hv rfl ha),
      fun hq => step_pseudo hq hfind rfl rfl (assemble_ram8 (.refl _) rfl rfl ha)⟩
  case ram64 =>
    exact ⟨fun hq hv => step_pseudo hq hfind rfl rfl (assemble_ram64 (.refl _) hv rfl ha),
      fun hq => step_pseudo hq hfind rfl rfl (assemble_ram64 (.refl _) rfl rfl ha)⟩
  case pc =>
    exact ⟨fun hq hv => step_pseudo hq hfind rfl rfl (assemble_pc (.refl _) hv rfl rfl rfl),
      fun hq => step_pseudo hq hfind rfl rfl (assemble_pc (.refl _) rfl rfl rfl rfl),
      fun hq => step_pseudo hq hfind rfl rfl (assemble_pc (.refl _) rfl rfl rfl rfl)⟩

theorem run_succ_of_step {M : Host.Core} {s t : M.State} (k : Nat) (h : M.step s = .next t) :
    M.run (k + 1) s = M.run k t := by
  rw [Host.Core.run, h]

/-- A PC call returns the old word, and takes `input` or zero only with `load` (R96). -/
theorem pcTick_eq (p input : Word) (load reset inc : Bit) :
    pcTick p input load reset inc = (p, if load = true then (if reset = true then 0#16 else input) else p) := by
  cases load <;> simp [pcTick, mux16Gate_eq]

theorem ticksTo_of_tick {i : Instr} {f : Instance → Option (Output × Instance)} {s : State} {n : Nat}
    {c c' : Instance} {o : Output} (hi : ∀ s, exec i s = tick f s) (hs : BoundTo s n c) (hf : f c = some (o, c')) :
    TicksTo i s n o c' :=
  ⟨_, (hi s).trans (tick_of_bound hs.1 hs.2 hf), rfl, rfl, rfl, find_put_same _ n c',
    fun _ hm => find_put_other _ c' hm⟩

theorem pc_ticksTo {s : State} {n : Nat} {p : Word} (hs : BoundTo s n (.pc p)) (input : Word) (load reset inc : Bit) :
    TicksTo (.pc input load reset inc) s n (.word p)
      (.pc (if load = true then (if reset = true then 0#16 else input) else p)) :=
  ticksTo_of_tick (fun _ => rfl) hs (by rw [pcStep, pcTick_eq])

/-- INC16 adds one, wrapping (R93). -/
theorem inc16Function_eq (v : Word) : inc16Function v = v + 1#16 := by
  simp [inc16Function, u, BitVec.ofNat_add]

theorem lastOut_of_outs {s : State} {os : List Output} {o : Output} (h : s.outs = os ++ [o]) : s.lastOut = some o := by
  simp [State.lastOut, h]

theorem toWord_returned {s : State} {w : Word} (h : s.lastOut = some (.word w)) :
    Value.toWord s.lastOut .returned = .ok w := by
  rw [h, Value.toWord]

/-- The INC16 line of PCSTEP: the word just returned, incremented, is returned. -/
theorem step_inc16Line {s : State} {o : Word} {rest : List Stimulus}
    (hq : s.queue = .call (.op .inc16 [(.v, .returned)]) :: rest) (hlast : s.lastOut = some (.word o)) :
    ∃ t, step s = .next t ∧ t.outs = s.outs ++ [.word (o + 1#16)] ∧ t.queue = rest ∧
      t.components = s.components := by
  rw [step_opLine hq (assemble_inc16 (.refl _) (toWord_returned hlast)), exec, execInc16, inc16Function_eq]
  exact ⟨_, rfl, rfl, rfl, rfl⟩

/-- Settles O50: the first tick returns the word, INC16 increments what was returned, and the second tick loads that. -/
theorem pcStepAdvancesThePcByOne : Obligations.PcStepAdvancesThePcByOne := by
  intro s n o rest hfind hq
  obtain ⟨t₁, hread, houts₁, hqueue₁, -, hfind₁, hother₁⟩ :=
    pc_ticksTo (s := { s with queue := (Pseudo.pcStep n).expand.2.map Stimulus.call ++ rest, bound := some n })
      ⟨rfl, hfind⟩ 0#16 false false false
  have hstep₁ : step s = .next t₁ :=
    (step_pseudo hq hfind rfl rfl (assemble_pc (.refl _) rfl rfl rfl rfl)).trans hread
  obtain ⟨t₂, hstep₂, houts₂, hqueue₂, hcomponents₂⟩ := step_inc16Line hqueue₁ (lastOut_of_outs houts₁)
  rw [← hcomponents₂] at hfind₁ hother₁
  obtain ⟨t₃, hload, houts₃, hqueue₃, -, hfind₃, hother₃⟩ :=
    pc_ticksTo (s := { t₂ with queue := rest, bound := some n }) ⟨rfl, hfind₁⟩ (o + 1#16) true false false
  have hval : Value.toWord t₂.lastOut .returned = .ok (o + 1#16) := toWord_returned (lastOut_of_outs houts₂)
  have hstep₃ : step t₂ = .next t₃ :=
    (step_execLine hqueue₂ hfind₁ (assemble_pc (.refl _) hval rfl rfl rfl)).trans hload
  have hrun : core.run 3 s = .next t₃ :=
    (run_succ_of_step 2 hstep₁).trans ((run_succ_of_step 1 hstep₂).trans (run_succ_of_step 0 hstep₃))
  exact ⟨t₃, hrun, hqueue₃, by simp [houts₃, houts₂, houts₁], hfind₃,
    fun m hm => (hother₃ m hm).trans (hother₁ m hm)⟩

/-! ## Addresses out of range -/

theorem toVec_dec_of_range {n : Nat} {d : Int} (h : 0 ≤ d ∧ d < 2 ^ n) :
    Value.toVec n (.dec d) = .ok (BitVec.ofNat n d.toNat) := if_pos h

theorem toVec_dec_out_of_range {n : Nat} {d : Int} (h : ¬(0 ≤ d ∧ d < 2 ^ n)) :
    Value.toVec n (.dec d) = .error .badOperand := if_neg h

/-- Settles O51: an address out of range is the one operand that does not resolve. -/
theorem anAddressOutOfRangeIsABadOperand : Obligations.AnAddressOutOfRangeIsABadOperand := by
  intro s n v w d rest hv hq
  refine ⟨fun m hfind hd => ?_, fun m hfind hd => ?_, fun m hfind h0 h63 => ?_⟩
  · have ha : Value.toVec 3 (.dec d) = .error .badOperand := toVec_dec_out_of_range (by omega)
    exact step_execLine_refused hq hfind (assemble_ram8_bad_address hv rfl ha)
  · have ha : Value.toVec 6 (.dec d) = .error .badOperand := toVec_dec_out_of_range (by omega)
    exact step_execLine_refused hq hfind (assemble_ram64_bad_address hv rfl ha)
  · have ha : Value.toVec 6 (.dec d) = .ok (BitVec.ofNat 6 d.toNat) := toVec_dec_of_range (by omega)
    exact step_execLine hq hfind (assemble_ram64 (.refl _) hv rfl ha)

/-! ## Results -/

theorem getElem?_lanes {n k : Nat} (v : Vec n) (h : k < n) : (lanes v)[k]? = some (lane v k) := by
  simp [lanes, h]

/-- Lane `k` has weight `2 ^ (n - 1 - k)` (R8). -/
theorem lane_eq_testBit {n k : Nat} (v : Vec n) (h : k < n) : lane v k = v.toNat.testBit (n - 1 - k) := by
  simp [lane, BitVec.getMsbD, h, BitVec.testBit_toNat]

/-- Settles O52: a word's result is its lanes, each of which is the bit of its weight. -/
theorem resultsAreWrittenLaneZeroFirst : Obligations.ResultsAreWrittenLaneZeroFirst := by
  refine ⟨fun w => ⟨length_lanes w, fun k hk => ?_⟩, fun _ => rfl, fun _ _ => rfl, fun _ => rfl⟩
  exact (getElem?_lanes w hk).trans (congrArg some (lane_eq_testBit w hk))

end Sys2Proof.Machine
end

section
/-!
PROOFS. The family 40_gates.md: the six scalar gates (O14) and AND16 (O15).
-/

namespace Sys2Proof.Machine

/-! ## What each NAND network computes -/

theorem nandGate_eq (x y : Bit) : nandGate x y = !(x && y) := by revert x y; decide

theorem notGate_eq (x : Bit) : notGate x = !x := by rw [notGate, nandGate_eq, Bool.and_self]

theorem orGate_eq (x y : Bit) : orGate x y = (x || y) := by
  rw [orGate, nandGate_eq, notGate_eq, notGate_eq, Bool.not_and, Bool.not_not, Bool.not_not]

theorem norGate_eq (x y : Bit) : norGate x y = !(x || y) := by rw [norGate, notGate_eq, orGate_eq]

theorem xorGate_eq (x y : Bit) : xorGate x y = (x != y) := by revert x y; decide

theorem and16Gate_eq (a b : Word) : and16Gate a b = a &&& b := by
  refine eq_of_lane_eq fun j hj => ?_
  rw [and16Gate, lane_map2 _ _ _ hj, andGate_eq]
  exact BitVec.getMsbD_and.symm

/-! ## The calls -/

/-- A call that returns `o` in the model answers with `p`, where `p` is the same result. -/
theorem answers_of_returns {i : Instr} {s : State} {o p : Output} (hexec : exec i s = .next (s.returns o))
    (hout : o = p) : Answers i s p := by
  subst hout
  exact hexec

/-- Settles O14: each record is the one `encode` writes, and each gate's network computes its truth table. -/
theorem gatesReturnTheirTruthTables : Obligations.GatesReturnTheirTruthTables := by
  intro s x y
  exact ⟨decodingTheRecordOfACallGivesTheCall (.nand x y), answers_of_returns rfl (congrArg _ (nandGate_eq x y)),
    decodingTheRecordOfACallGivesTheCall (.not x), answers_of_returns rfl (congrArg _ (notGate_eq x)),
    decodingTheRecordOfACallGivesTheCall (.and x y), answers_of_returns rfl (congrArg _ (andGate_eq x y)),
    decodingTheRecordOfACallGivesTheCall (.or x y), answers_of_returns rfl (congrArg _ (orGate_eq x y)),
    decodingTheRecordOfACallGivesTheCall (.nor x y), answers_of_returns rfl (congrArg _ (norGate_eq x y)),
    decodingTheRecordOfACallGivesTheCall (.xor x y), answers_of_returns rfl (congrArg _ (xorGate_eq x y))⟩

/-- Settles O15: the record holds `a` and then `b`, and AND in every lane is `&&&`. -/
theorem and16ActsLaneByLane : Obligations.And16ActsLaneByLane := by
  intro s a b
  rw [List.append_assoc]
  exact ⟨decodingTheRecordOfACallGivesTheCall (.and16 a b), answers_of_returns rfl (congrArg _ (and16Gate_eq a b))⟩

end Sys2Proof.Machine
end

section
/-!
PROOFS. The family 41_mux_dmux.md: MUX, MUX16 and MUX8WAY16 (O16, O17, O18), DMUX (O19) and DMUX8WAY (O20, O21).
-/

namespace Sys2Proof.Machine

/-! ## Multiplexers -/

/-- Settles O16: the record is the one `encode` writes, and the network of R70 selects. -/
theorem muxReturnsTheSelectedSignal : Obligations.MuxReturnsTheSelectedSignal := by
  intro s x y sel
  exact ⟨decodingTheRecordOfACallGivesTheCall (.mux x y sel), answers_of_returns rfl (congrArg _ (muxGate_eq x y sel))⟩

/-- Settles O17: `mux` in every lane with the one selector is the selected word. -/
theorem mux16ReturnsTheSelectedWord : Obligations.Mux16ReturnsTheSelectedWord := by
  intro s a b sel
  rw [List.append_assoc, List.append_assoc, ← List.append_assoc (lanes a)]
  exact ⟨decodingTheRecordOfACallGivesTheCall (.mux16 a b sel),
    answers_of_returns rfl (congrArg _ (mux16Gate_eq a b sel))⟩

/-- Settles O18: selecting among eight words is indexing their list, which every selector can do. -/
theorem mux8Way16ReturnsTheNumberedWord : Obligations.Mux8Way16ReturnsTheNumberedWord := by
  intro s v0 v1 v2 v3 v4 v5 v6 v7 sel3
  have hindex := Eight.getElem?_toList (⟨v0, v1, v2, v3, v4, v5, v6, v7⟩ : Eight Word) sel3
  refine ⟨?record, _, hindex, answers_of_returns rfl rfl⟩
  case record =>
    simpa only [encode, encodeFields, Instr.op, Op.field, List.append_assoc] using
      decodingTheRecordOfACallGivesTheCall (.mux8way16 ⟨v0, v1, v2, v3, v4, v5, v6, v7⟩ sel3)

/-! ## Demultiplexers -/

theorem dmuxGate_eq (input sel : Bit) : dmuxGate input sel = (input && !sel, input && sel) := by
  rw [dmuxGate, andGate_eq, andGate_eq, notGate_eq]

/-- Settles O19: with `sel = 0` the outputs are `[input, 0]`, with `sel = 1` they are `[0, input]`. -/
theorem dmuxPassesItsInputToOneSide : Obligations.DmuxPassesItsInputToOneSide := by
  intro s input sel
  refine ⟨decodingTheRecordOfACallGivesTheCall (.dmux input sel), input && !sel, input && sel,
    answers_of_returns rfl (by rw [dmuxGate_eq]), ?_⟩
  cases sel with
  | false => simp
  | true => simp

/-- The outputs of DMUX8WAY are eight zeros, but for the input at the place the selector numbers (R74). -/
theorem toList_dmux8wayGate (input : Bit) (sel3 : Vec 3) :
    (dmux8wayGate input sel3).toList = (List.replicate 8 false).set sel3.toNat input := by
  rcases vec3_cases sel3 with h | h | h | h | h | h | h | h <;> subst h <;> rfl

/-- Settles O20: setting one place of eight zeros changes that place and no other. -/
theorem dmux8WayPassesItsInputToTheNumberedOutput : Obligations.Dmux8WayPassesItsInputToTheNumberedOutput := by
  intro s input sel3
  refine ⟨decodingTheRecordOfACallGivesTheCall (.dmux8way input sel3), dmux8wayGate input sel3,
    answers_of_returns rfl rfl, fun k hk => ?_⟩
  rw [toList_dmux8wayGate]
  by_cases h : k = sel3.toNat
  · rw [h, List.getElem?_set_self sel3.isLt, if_pos rfl]
  · rw [List.getElem?_set_ne (Ne.symm h), if_neg h, List.getElem?_replicate, if_pos hk]

/-- Among the outputs of DMUX8WAY there is one 1 with input 1, and none with input 0. -/
theorem count_true_toList_dmux8wayGate (input : Bit) (sel3 : Vec 3) :
    (dmux8wayGate input sel3).toList.count true = input.toNat := by
  rw [toList_dmux8wayGate, List.count_set sel3.isLt]
  cases input <;> simp

theorem sum_map_toNat (l : List Bit) : (l.map Bool.toNat).sum = l.count true := by
  induction l with
  | nil => rfl
  | cons b l ih => cases b <;> simp [ih, Nat.add_comm]

/-- Settles O21: the number of ones, which is also the sum, is the input as a number. -/
theorem dmux8WayIsOneHotOrZero : Obligations.Dmux8WayIsOneHotOrZero := by
  intro s input sel3
  refine ⟨dmux8wayGate input sel3, answers_of_returns rfl rfl, ?_⟩
  rw [sum_map_toNat, count_true_toList_dmux8wayGate]
  exact ⟨Bool.toNat_le input, Bool.toNat_eq_one, rfl⟩

end Sys2Proof.Machine
end

section
/-!
PROOFS. The family 42_storage.md: DFF (O24), BIT (O25), REGISTER (O26), the unit delay of a DFF (O27) and the load law of a
register (O28).
-/

namespace Sys2Proof.Machine

/-! ## One call -/

theorem dff_ticksTo {s : State} {n : Nat} {q : Bit} (hs : BoundTo s n (.dff q)) (input : Bit) :
    TicksTo (.dff input) s n (.bit q) (.dff input) :=
  ticksTo_of_tick (fun _ => rfl) hs (by rw [dffStep, dffTick])

theorem bit_ticksTo {s : State} {n : Nat} {q : Bit} (hs : BoundTo s n (.bit q)) (input load : Bit) :
    TicksTo (.bit input load) s n (.bit q) (.bit (if load = true then input else q)) :=
  ticksTo_of_tick (fun _ => rfl) hs (by rw [bitStep, bitTick_eq])

theorem register_ticksTo {s : State} {n : Nat} {q : Word} (hs : BoundTo s n (.register q)) (input : Word) (load : Bit) :
    TicksTo (.register input load) s n (.word q) (.register (if load = true then input else q)) :=
  ticksTo_of_tick (fun _ => rfl) hs (by rw [registerStep, registerTick_eq])

/-- Settles O24: the record is the one `encode` writes, and the tick returns what was stored. -/
theorem dffReturnsTheOldBitAndStoresTheInput : Obligations.DffReturnsTheOldBitAndStoresTheInput := by
  intro s n q input hs
  exact ⟨decodingTheRecordOfACallGivesTheCall (.dff input), dff_ticksTo hs input⟩

/-- Settles O25: the multiplexer before the storage cell selects the input with `load = 1` and the stored bit otherwise. -/
theorem bitReturnsTheOldBitAndLoadsWhenTold : Obligations.BitReturnsTheOldBitAndLoadsWhenTold := by
  intro s n q input load hs
  exact ⟨rfl, decodingTheRecordOfACallGivesTheCall (.bit input load), bit_ticksTo hs input load⟩

/-- Settles O26: sixteen bit cells with one `load` select between two whole words. -/
theorem registerReturnsTheOldWordAndLoadsWhenTold : Obligations.RegisterReturnsTheOldWordAndLoadsWhenTold := by
  intro s n q input load hs
  rw [List.append_assoc]
  exact ⟨rfl, decodingTheRecordOfACallGivesTheCall (.register input load), register_ticksTo hs input load⟩

/-! ## Several calls -/

/-- The component a call acted on stays bound. -/
theorem TicksTo.next_boundTo {i : Instr} {s : State} {n : Nat} {o : Output} {c d : Instance} (h : TicksTo i s n o d)
    (hs : BoundTo s n c) : ∃ t, exec i s = .next t ∧ t.outs = s.outs ++ [o] ∧ BoundTo t n d := by
  obtain ⟨t, hexec, houts, -, hbound, hfind, -⟩ := h
  exact ⟨t, hexec, houts, hbound.trans hs.1, hfind⟩

/-- Settles O28: a read keeps the word, and after a load the register holds the loaded word for the second call to return. -/
theorem aRegisterReadReturnsWhatWasLoaded : Obligations.ARegisterReadReturnsWhatWasLoaded := by
  intro s n q v w hs
  constructor
  · obtain ⟨t, hread, houts, -, hfind⟩ := (register_ticksTo hs v false).next_boundTo hs
    exact ⟨t, hread, houts, hfind⟩
  · obtain ⟨t, hload, houts, ht⟩ := (register_ticksTo hs v true).next_boundTo hs
    obtain ⟨t', hread, houts', -⟩ := (register_ticksTo ht w false).next_boundTo ht
    exact ⟨t, t', hload, hread, by simp [houts', houts]⟩

theorem step_recordTo {s : State} {n : Nat} {i : Instr} {rest : List Stimulus} (hq : s.queue = recordTo n i :: rest) :
    step s = exec i { s with queue := rest, bound := some n } := by
  rw [step_of_queue hq]
  exact runRecord_encode i (some n) _

/-- The step on a record sent to a DFF. -/
theorem step_dff {s : State} {n : Nat} {q input : Bit} {rest : List Stimulus}
    (hfind : Memory.find s.components n = some (.dff q)) (hq : s.queue = recordTo n (.dff input) :: rest) :
    ∃ t, step s = .next t ∧ t.outs = s.outs ++ [.bit q] ∧ t.queue = rest ∧
      Memory.find t.components n = some (.dff input) := by
  obtain ⟨t, hexec, houts, hqueue, -, hfind', -⟩ :=
    dff_ticksTo (s := { s with queue := rest, bound := some n }) ⟨rfl, hfind⟩ input
  exact ⟨t, (step_recordTo hq).trans hexec, houts, hqueue, hfind'⟩

/-- Settles O27, by induction on the inputs: after the first call the DFF holds the first input, which is what the run of
the others then returns first. -/
theorem aDffDelaysEverySequenceByOneTick : Obligations.ADffDelaysEverySequenceByOneTick := by
  intro vs
  induction vs with
  | nil =>
    intro s n s0 hfind _
    exact ⟨s, rfl, by simp, hfind⟩
  | cons v vs ih =>
    intro s n s0 hfind hq
    obtain ⟨t₁, hstep, houts₁, hqueue₁, hfind₁⟩ := step_dff hfind hq
    obtain ⟨t, hrun, houts, hlast⟩ := ih t₁ n v hfind₁ hqueue₁
    refine ⟨t, (run_succ_of_step vs.length hstep).trans hrun, ?_, ?_⟩
    · simp [houts, houts₁]
    · rw [hlast, List.getLastD_cons]

end Sys2Proof.Machine
end

section
/-!
PROOFS. The family 43_ram.md: RAM8 (O29) and RAM64 (O30) are arrays of words; what an array stores and reads back (O31,
O32), and the demultiplexed load (O33).
-/

namespace Sys2Proof.Machine

/-! ## Addresses -/

theorem exists_toNat_eq {n k : Nat} (h : k < 2 ^ n) : ∃ i : Vec n, i.toNat = k :=
  ⟨BitVec.ofNatLT k h, BitVec.toNat_ofNatLT k h⟩

/-- `u(address) = 8 * u(high) + u(low)` (20_memory.md R38). -/
theorem toNat_eq_high_low (a : Vec 6) : a.toNat = 8 * (highOf a).toNat + (lowOf a).toNat := by
  revert a; decide

/-- A leaf of a RAM64 is the addressed one when both tiers select it. -/
theorem leaf_eq_address_iff (a : Vec 6) (h l : Vec 3) :
    8 * h.toNat + l.toNat = a.toNat ↔ h = highOf a ∧ l = lowOf a := by
  have hl := l.isLt
  have hlow := (lowOf a).isLt
  rw [toNat_eq_high_low a, ← BitVec.toNat_inj, ← BitVec.toNat_inj]
  omega

theorem eq_iff_high_low (a b : Vec 6) : b = a ↔ highOf b = highOf a ∧ lowOf b = lowOf a := by
  rw [← BitVec.toNat_inj, toNat_eq_high_low b, leaf_eq_address_iff]

/-! ## Lists of words by address -/

/-- The list `l` holds, at every address of `n` bits and nowhere else, the word `f` gives there. -/
def ListsWords {n : Nat} (l : List Word) (f : Vec n → Word) : Prop :=
  l.length = 2 ^ n ∧ ∀ a, l[a.toNat]? = some (f a)

/-- What is read at `b` after `v` is stored at `a`. -/
theorem getElem?_set_toNat {n : Nat} {l : List Word} {a b : Vec n} {old : Word} (v : Word)
    (h : l[b.toNat]? = some old) : (l.set a.toNat v)[b.toNat]? = some (if b = a then v else old) := by
  by_cases hb : b = a
  · obtain ⟨hlt, -⟩ := List.getElem?_eq_some_iff.mp h
    subst hb
    rw [List.getElem?_set_self hlt, if_pos rfl]
  · have hne : a.toNat ≠ b.toNat := fun hab => hb (BitVec.eq_of_toNat_eq hab.symm)
    rw [List.getElem?_set_ne hne, h, if_neg hb]

/-- Where `f'` is `f` with, under `load`, the word `w` stored at `a`, so are the lists. -/
theorem listsWords_store {n : Nat} {l l' : List Word} {f f' : Vec n → Word} {load : Bit} {a : Vec n} {w : Word}
    (h : ListsWords l f) (h' : ListsWords l' f') (hstore : ∀ b, f' b = if load = true ∧ b = a then w else f b) :
    l' = if load = true then l.set a.toNat w else l := by
  obtain ⟨hlen, hget⟩ := h
  obtain ⟨hlen', hget'⟩ := h'
  apply List.ext_getElem?
  intro k
  by_cases hk : k < 2 ^ n
  · obtain ⟨b, rfl⟩ := exists_toNat_eq hk
    rw [hget', hstore]
    cases load with
    | false => simp [hget]
    | true => simp [getElem?_set_toNat w (hget b)]
  · have hend : l'.length ≤ k := by omega
    have hend' : (if load = true then l.set a.toNat w else l).length ≤ k := by cases load <;> simp <;> omega
    rw [List.getElem?_eq_none hend, List.getElem?_eq_none hend']

theorem ram8Words_listsWords (m : Eight Word) : ListsWords (ram8Words m) m.get :=
  ⟨rfl, Eight.getElem?_toList m⟩

/-- Groups of eight, laid end to end: item `l` of group `h` is item `8 * h + l`. -/
theorem getElem?_flatMap_toList {α : Type} (cs : List (Eight α)) (h : Nat) {l : Nat} (hl : l < 8) :
    (cs.flatMap Eight.toList)[8 * h + l]? = cs[h]?.bind fun c => c.toList[l]? := by
  induction cs generalizing h with
  | nil => rfl
  | cons c cs ih =>
    have hlen : c.toList.length = 8 := rfl
    rw [List.flatMap_cons]
    cases h with
    | zero => simp [List.getElem?_append_left, hlen, hl]
    | succ h =>
      rw [List.getElem?_append_right (by omega), show 8 * (h + 1) + l - c.toList.length = 8 * h + l by omega, ih,
        List.getElem?_cons_succ]

/-- The word of a RAM64 at an address: word `low` of child `high` (R88). -/
def ram64Get (m : Eight (Eight Word)) (a : Vec 6) : Word := (m.get (highOf a)).get (lowOf a)

theorem ram64Words_listsWords (m : Eight (Eight Word)) : ListsWords (ram64Words m) (ram64Get m) := by
  refine ⟨rfl, fun a => ?_⟩
  rw [toNat_eq_high_low, ram64Words, getElem?_flatMap_toList _ _ (lowOf a).isLt, Eight.getElem?_toList,
    Option.bind_some, Eight.getElem?_toList, ram64Get]

/-! ## One tick of each tier -/

/-- A RAM8 returns the addressed word and, with load = 1, stores the input there and nowhere else (R86). -/
theorem ram8Tick_eq (m : Eight Word) (input : Word) (load : Bit) (a : Vec 3) :
    (ram8Tick m input load a).1 = m.get a ∧
    ∀ b, (ram8Tick m input load a).2.get b = if load = true ∧ b = a then input else m.get b := by
  obtain ⟨hout, hget⟩ := ramTier_eq registerTick m input load a
  refine ⟨by rw [ram8Tick, hout, registerTick_eq], fun b => ?_⟩
  rw [ram8Tick, hget, registerTick_eq]
  by_cases hb : b = a <;> simp [hb]

/-- A RAM64 does the same with its 64 words: each tier selects by its own part of the address (R88). -/
theorem ram64Tick_eq (m : Eight (Eight Word)) (input : Word) (load : Bit) (a : Vec 6) :
    (ram64Tick m input load a).1 = ram64Get m a ∧
    ∀ b, ram64Get (ram64Tick m input load a).2 b = if load = true ∧ b = a then input else ram64Get m b := by
  obtain ⟨hout, hget⟩ := ramTier_eq (fun c w l => ram8Tick c w l (lowOf a)) m input load (highOf a)
  refine ⟨by rw [ram64Tick, hout, (ram8Tick_eq _ _ _ _).1, ram64Get], fun b => ?_⟩
  rw [ram64Get, ram64Tick, hget, (ram8Tick_eq _ _ _ _).2]
  by_cases hb : highOf b = highOf a <;> simp [ram64Get, eq_iff_high_low, hb]

/-! ## A RAM is an array of words -/

/-- The pseudocode of R86: a call on a bound component `ram m` returns the addressed word of `words m` as it was and, with
load = 1, stores the input there and nowhere else. -/
def IsArrayOfWords {n : Nat} {α : Type} (call : Word → Bit → Vec n → Instr) (ram : α → Instance)
    (words : α → List Word) : Prop :=
  ∀ (s : State) (k : Nat) (m : α) (input : Word) (load : Bit) (a : Vec n), BoundTo s k (ram m) →
    ∃ w m', (words m)[a.toNat]? = some w ∧ TicksTo (call input load a) s k (.word w) (ram m') ∧
      words m' = if load = true then (words m).set a.toNat input else words m

theorem ram8_isArrayOfWords : IsArrayOfWords .ram8 .ram8 ram8Words := by
  intro s n m input load a hs
  obtain ⟨hout, hget⟩ := ram8Tick_eq m input load a
  exact ⟨m.get a, (ram8Tick m input load a).2, Eight.getElem?_toList m a,
    ticksTo_of_tick (fun _ => rfl) hs (by rw [ram8Step, hout]),
    listsWords_store (ram8Words_listsWords m) (ram8Words_listsWords _) hget⟩

theorem ram64_isArrayOfWords : IsArrayOfWords .ram64 .ram64 ram64Words := by
  intro s n m input load a hs
  obtain ⟨hout, hget⟩ := ram64Tick_eq m input load a
  exact ⟨ram64Get m a, (ram64Tick m input load a).2, (ram64Words_listsWords m).2 a,
    ticksTo_of_tick (fun _ => rfl) hs (by rw [ram64Step, hout]),
    listsWords_store (ram64Words_listsWords m) (ram64Words_listsWords _) hget⟩

/-- Settles O29: each register of the tier is the word at its own number. -/
theorem ram8IsAnArrayOfEightWords : Obligations.Ram8IsAnArrayOfEightWords :=
  fun s n m input load a hs => ⟨ram8_isArrayOfWords s n m input load a hs, rfl⟩

/-- Settles O30: the tiers select by `high` and by `low`, which are the two parts of a leaf's number. -/
theorem ram64IsAnArrayOfSixtyFourWords : Obligations.Ram64IsAnArrayOfSixtyFourWords :=
  fun s n m input load a hs => ⟨ram64_isArrayOfWords s n m input load a hs, toNat_eq_high_low a, rfl,
    fun h _ _ hl => getElem?_flatMap_toList m.toList h hl⟩

section Arrays
variable {n : Nat} {α : Type} {call : Word → Bit → Vec n → Instr} {ram : α → Instance} {words : α → List Word}

/-- The frame of an array's call (R37, R86). -/
theorem IsArrayOfWords.frame (h : IsArrayOfWords call ram words) {s t : State} {k : Nat} {m : α} {input : Word}
    {load : Bit} {a : Vec n} (hs : BoundTo s k (ram m)) (ht : exec (call input load a) s = .next t) :
    ∃ m', Memory.find t.components k = some (ram m') ∧
      ∀ j, (load = false ∨ j ≠ a.toNat) → (words m')[j]? = (words m)[j]? := by
  obtain ⟨w, m', -, hticks, hwords⟩ := h s k m input load a hs
  obtain ⟨t', hexec, -, -, hfind⟩ := hticks.next_boundTo hs
  obtain rfl : t' = t := Host.Outcome.next.inj (hexec.symm.trans ht)
  refine ⟨m', hfind, fun j hj => ?_⟩
  rw [hwords]
  cases load with
  | false => simp
  | true =>
    have hne : j ≠ a.toNat := by simpa using hj
    rw [if_pos rfl, List.getElem?_set_ne hne.symm]

/-- A write at `a` and then a read at `b` (R92). -/
theorem IsArrayOfWords.read_after_write (h : IsArrayOfWords call ram words) {s : State} {k : Nat} {m : α}
    (hs : BoundTo s k (ram m)) (v w : Word) (a b : Vec n) :
    ∃ (old : Word) (t t' : State), (words m)[b.toNat]? = some old ∧ exec (call v true a) s = .next t ∧
      exec (call w false b) t = .next t' ∧ t'.outs = t.outs ++ [.word (if b = a then v else old)] := by
  obtain ⟨old, -, hold, -⟩ := h s k m w false b hs
  obtain ⟨_, m', -, hwrite, hwords⟩ := h s k m v true a hs
  obtain ⟨t, hexec, -, ht⟩ := hwrite.next_boundTo hs
  obtain ⟨now, _, hnow, hread, -⟩ := h t k m' w false b ht
  obtain ⟨t', hexec', houts', -⟩ := hread.next_boundTo ht
  rw [hwords, if_pos rfl, getElem?_set_toNat v hold] at hnow
  obtain rfl := Option.some.inj hnow
  exact ⟨old, t, t', hold, hexec, hexec', houts'⟩

end Arrays

/-- Settles O31: it is the frame of an array. -/
theorem aRamCallStoresOnlyAtItsAddress : Obligations.ARamCallStoresOnlyAtItsAddress :=
  ⟨fun _ _ _ _ _ _ _ => ram8_isArrayOfWords.frame, fun _ _ _ _ _ _ _ => ram64_isArrayOfWords.frame⟩

/-- Settles O32: it is what an array reads back. -/
theorem aRamReadReturnsTheLastWriteAtItsAddress : Obligations.ARamReadReturnsTheLastWriteAtItsAddress :=
  ⟨fun _ _ _ v w a b hs => ram8_isArrayOfWords.read_after_write hs v w a b,
    fun _ _ _ v w a b hs => ram64_isArrayOfWords.read_after_write hs v w a b⟩

/-! ## The demultiplexed load -/

theorem getElem?_toList_dmux8wayGate (input : Bit) (sel3 i : Vec 3) :
    (dmux8wayGate input sel3).toList[i.toNat]? = some (if i = sel3 then input else false) := by
  rw [Eight.getElem?_toList, get_dmux8wayGate]

/-- Settles O33: each demultiplexer passes its load to the child its selector numbers, so both pass it to the leaf numbered
by both. -/
theorem exactlyTheAddressedLeafHasItsLoadEnabled : Obligations.ExactlyTheAddressedLeafHasItsLoadEnabled := by
  constructor
  · intro load a h hh
    obtain ⟨i, rfl⟩ : ∃ i : Vec 3, i.toNat = h := exists_toNat_eq hh
    refine ⟨_, getElem?_toList_dmux8wayGate load a i, ?_⟩
    simp [BitVec.toNat_inj, and_comm]
  · intro load a h l hh hl
    obtain ⟨i, rfl⟩ : ∃ i : Vec 3, i.toNat = h := exists_toNat_eq hh
    obtain ⟨j, rfl⟩ : ∃ j : Vec 3, j.toNat = l := exists_toNat_eq hl
    refine ⟨_, _, getElem?_toList_dmux8wayGate load (highOf a) i, getElem?_toList_dmux8wayGate _ (lowOf a) j, ?_⟩
    rw [leaf_eq_address_iff]
    by_cases hj : j = lowOf a <;> simp [hj, and_comm]

end Sys2Proof.Machine
end

section
/-!
PROOFS. The family 44_pc.md: the incrementer (O22), a call of the program counter (O34, O35) and what the call after it
returns (O36).
-/

namespace Sys2Proof.Machine

/-- Settles O22: the record is the one `encode` writes, and adding 1 to a word wraps at 65536. -/
theorem inc16AddsOneAndWraps : Obligations.Inc16AddsOneAndWraps := by
  intro s v
  exact ⟨decodingTheRecordOfACallGivesTheCall (.inc16 v), v + 1#16,
    answers_of_returns rfl (congrArg _ (inc16Function_eq v)), BitVec.toNat_add v 1#16⟩

/-- Settles O34: of the three multiplexers before the register, the one for `reset` has the last word, and the register's
own `load` decides whether that word is kept. -/
theorem pcCommitsInputOrZeroOnlyWithLoad : Obligations.PcCommitsInputOrZeroOnlyWithLoad :=
  fun _ _ _ input load reset inc hs => pc_ticksTo hs input load reset inc

/-- Without `load` the register ignores the multiplexers, and with it the `load` multiplexer drops what `inc` selected. -/
theorem pcStep_inc (input : Word) (load reset inc inc' : Bit) :
    pcStep input load reset inc = pcStep input load reset inc' := by
  funext c
  cases c with
  | dff | bit | register | ram8 | ram64 => rfl
  | pc p => simp only [pcStep, pcTick_eq]

/-- Settles O35: the two calls are ticks by the same transition. -/
theorem pcIncHasNoEffect : Obligations.PcIncHasNoEffect :=
  fun s input load reset => congrArg (tick · s) (pcStep_inc input load reset true false)

/-- Two PC calls in a row: the second returns what the first committed, whatever its own inputs are. -/
theorem pc_second_call_returns_committed {s : State} {n : Nat} {p : Word} (hs : BoundTo s n (.pc p))
    (input other : Word) (load reset inc load' reset' inc' : Bit) :
    ∃ t t', exec (.pc input load reset inc) s = .next t ∧ exec (.pc other load' reset' inc') t = .next t' ∧
      t'.outs = s.outs ++
        [.word p, .word (if load = true then (if reset = true then 0#16 else input) else p)] := by
  obtain ⟨t, hexec, houts, ht⟩ := (pc_ticksTo hs input load reset inc).next_boundTo hs
  obtain ⟨t', hexec', houts', -⟩ := (pc_ticksTo ht other load' reset' inc').next_boundTo ht
  exact ⟨t, t', hexec, hexec', by rw [houts', houts, List.append_assoc, List.singleton_append]⟩

/-- Settles O36: the three cases are a reset with `load = 1`, a load, and a call with `load = 0`. -/
theorem pcNextOutputFollowsTheLoadGatedLaw : Obligations.PcNextOutputFollowsTheLoadGatedLaw :=
  fun _ _ _ input other reset inc load' reset' inc' hs =>
    ⟨pc_second_call_returns_committed hs input other true true inc load' reset' inc',
      pc_second_call_returns_committed hs input other true false inc load' reset' inc',
      pc_second_call_returns_committed hs input other false reset inc load' reset' inc'⟩

end Sys2Proof.Machine
end

section
/-!
PROOFS. The family 60_exceptions.md: how a step can be refused (O13), and what a step does to the components in use (O56,
O58) and to what has been returned (O57).
-/

namespace Sys2Proof.Machine

/-! ## Refusals of a line's operands -/

/-- The value read is a refusal only as `BadOperand` (R56). -/
def OnlyBadOperand {α : Type} (x : Except Refusal α) : Prop := ∀ r, x = .error r → r = .badOperand

section Readers

variable {α β : Type}

@[simp] theorem onlyBadOperand_ok (a : α) : OnlyBadOperand (.ok a) := nofun

@[simp] theorem onlyBadOperand_pure (a : α) : OnlyBadOperand (pure a) := onlyBadOperand_ok a

@[simp] theorem onlyBadOperand_error : OnlyBadOperand (.error .badOperand : Except Refusal α) :=
  fun _ h => (Except.error.inj h).symm

/-- A reader that refuses only as `BadOperand`, followed by others that do. -/
theorem OnlyBadOperand.bind {x : Except Refusal α} {f : α → Except Refusal β} (hx : OnlyBadOperand x)
    (hf : ∀ a, OnlyBadOperand (f a)) : OnlyBadOperand (x >>= f) := by
  cases x with
  | error r =>
    obtain rfl := hx r rfl
    exact onlyBadOperand_error
  | ok a => exact hf a

end Readers

theorem onlyBadOperand_toBit (last : Option Output) (v : Value) : OnlyBadOperand (v.toBit last) := by
  unfold Value.toBit
  repeat' split
  all_goals simp

theorem onlyBadOperand_toWord (last : Option Output) (v : Value) : OnlyBadOperand (v.toWord last) := by
  unfold Value.toWord
  repeat' split
  all_goals simp

theorem onlyBadOperand_toVec (n : Nat) (v : Value) : OnlyBadOperand (v.toVec n) := by
  unfold Value.toVec
  repeat' split
  all_goals simp

theorem onlyBadOperand_fieldValue (fs : List (Field × Value)) (f : Field) : OnlyBadOperand (fieldValue fs f) := by
  unfold fieldValue
  split <;> simp

section Lines

variable (last : Option Output) (fs : List (Field × Value)) (f : Field)

@[simp] theorem onlyBadOperand_lineBit : OnlyBadOperand (lineBit last fs f) :=
  (onlyBadOperand_fieldValue fs f).bind (onlyBadOperand_toBit last)

@[simp] theorem onlyBadOperand_lineWord : OnlyBadOperand (lineWord last fs f) :=
  (onlyBadOperand_fieldValue fs f).bind (onlyBadOperand_toWord last)

@[simp] theorem onlyBadOperand_lineVec (n : Nat) : OnlyBadOperand (lineVec n fs f) :=
  (onlyBadOperand_fieldValue fs f).bind (onlyBadOperand_toVec n)

/-- An operation's fields are read one after another, each by one of the three readers above. -/
theorem onlyBadOperand_assembleFields (op : Op) : OnlyBadOperand (assembleFields last fs op) := by
  cases op
  all_goals
    unfold assembleFields
    repeat' with_reducible refine OnlyBadOperand.bind ?_ fun _ => ?_
  all_goals simp

theorem onlyBadOperand_assemble (op : Op) : OnlyBadOperand (assemble last op fs) := by
  unfold assemble
  split
  · exact onlyBadOperand_assembleFields last fs op
  · exact onlyBadOperand_error

end Lines

theorem onlyBadOperand_assembleNew (last : Option Output) (k : Kind) (init : Option Value) :
    OnlyBadOperand (assembleNew last k init) := by
  cases init with
  | none => simp [assembleNew_none]
  | some v =>
    by_cases hk : k = .dff
    · subst hk
      exact (onlyBadOperand_toBit last v).bind fun z => onlyBadOperand_ok (Construction.dff z)
    · simp [assembleNew_some_refused last v hk]

/-! ## How a step answers -/

/-- What the boundary may answer to a stimulus: a next state, or one of the refusals of R55 and R56. -/
inductive AnswersByTheRules : Host.Outcome State Fault Refusal → Prop where
  | next (t : State) : AnswersByTheRules (.next t)
  | reservedOp : AnswersByTheRules (.refused .reservedOp)
  | badLength : AnswersByTheRules (.refused .badLength)
  | badInstance : AnswersByTheRules (.refused .badInstance)
  | badOperand : AnswersByTheRules (.refused .badOperand)

/-- A tick answers a next state where a component is bound for which it has a transition, and is a `BadInstance`
elsewhere. -/
theorem tick_answers (f : Instance → Option (Output × Instance)) (s : State) : AnswersByTheRules (tick f s) := by
  by_cases h : ∀ n c, s.bound = some n → Memory.find s.components n = some c → f c = none
  · rw [tick_refused h]
    exact .badInstance
  · push Not at h
    obtain ⟨n, c, hbound, hfind, hsome⟩ := h
    obtain ⟨⟨o, c'⟩, hf⟩ := Option.ne_none_iff_exists'.mp hsome
    rw [tick_of_bound hbound hfind hf]
    exact .next _

theorem exec_answers (i : Instr) (s : State) : AnswersByTheRules (exec i s) := by
  rcases exec_answers_or_ticks i with ⟨o, hi⟩ | ⟨f, hi⟩
  · rw [hi]
    exact .next _
  · rw [hi]
    exact tick_answers f s

theorem runRecord_answers (bits : List Bit) (binding : Option Nat) (s : State) :
    AnswersByTheRules (runRecord bits binding s) := by
  cases h : decode bits with
  | error e =>
    cases e with
    | reservedOp =>
      rw [runRecord_of_reservedOp binding s h]
      exact .reservedOp
    | badLength =>
      rw [runRecord_of_badLength binding s h]
      exact .badLength
  | ok i =>
    rw [runRecord_of_decode h]
    exact exec_answers i _

/-- A line is refused for its component or its operands, or answers as what it was assembled to. -/
theorem runCall_answers (c : Call) (s : State) : AnswersByTheRules (runCall c s) := by
  unfold runCall
  split
  · next k n init =>
    split
    · next r hr =>
      obtain rfl := onlyBadOperand_assembleNew _ k init r hr
      exact .badOperand
    · exact .next _
  · next op fields =>
    split
    · next r hr =>
      obtain rfl := onlyBadOperand_assemble _ fields op r hr
      exact .badOperand
    · exact runRecord_answers _ _ s
  · next n fields =>
    split
    · exact .badInstance
    · split
      · next r hr =>
        obtain rfl := onlyBadOperand_assemble _ fields _ r hr
        exact .badOperand
      · exact runRecord_answers _ _ s

theorem runPseudo_answers (p : Pseudo) (s : State) : AnswersByTheRules (runPseudo p s) := by
  unfold runPseudo
  split
  · exact .badInstance
  · split
    · exact runCall_answers _ _
    · exact .badInstance

theorem runStimulus_answers (e : Stimulus) (s : State) : AnswersByTheRules (runStimulus e s) := by
  cases e with
  | construct n c => exact .next _
  | discard n => exact .next _
  | record bits binding => exact runRecord_answers bits binding s
  | call c => exact runCall_answers c s
  | pseudo p => exact runPseudo_answers p s

theorem step_of_queue_nil {s : State} (h : s.queue = []) : step s = .refused .noStimulus := by
  simp [step, h]

/-- Settles O13: with nothing sent the step is `noStimulus`, and to whatever is sent it answers by R55 and R56. -/
theorem everyStepCompletesOrIsARefusalTheRulesName : Obligations.EveryStepCompletesOrIsARefusalTheRulesName := by
  intro s
  cases hq : s.queue with
  | nil => simp [step_of_queue_nil hq]
  | cons e rest =>
    have hanswer := runStimulus_answers e { s with queue := rest }
    rw [← step_of_queue hq] at hanswer
    generalize step s = x at hanswer
    cases hanswer <;> simp

/-! ## Components in use, and results -/

/-- A step on a stimulus that neither constructs nor discards makes one call. -/
theorem step_makes_one_call {s t : State} {e : Stimulus} {rest : List Stimulus} (hq : s.queue = e :: rest)
    (h : step s = .next t) (hconstruct : ∀ n c, e ≠ .construct n c) (hdiscard : ∀ n, e ≠ .discard n)
    (hnew : ∀ k n v, e ≠ .call (.new k n v)) :
    ∃ i q b, exec i { s with queue := q, bound := b } = .next t := by
  obtain ⟨e', rest', hq', hcase⟩ := step_next h
  obtain ⟨rfl, rfl⟩ := List.cons.inj (hq.symm.trans hq')
  rcases hcase with ⟨n, d, hd | ⟨k, v, hv⟩, -⟩ | ⟨n, hn, -⟩ | ⟨-, -, -, hcall⟩
  · exact absurd hd (hconstruct n d)
  · exact absurd hv (hnew k n v)
  · exact absurd hn (hdiscard n)
  · exact hcall

/-- A call keeps the kind of its own component, and every other component as it was. -/
theorem exec_keeps_kinds {i : Instr} {s t : State} (h : exec i s = .next t) (n : Nat) :
    kindOfName t n = kindOfName s n := by
  cases hkind : kindOfOp i.op with
  | none =>
    obtain ⟨o, hi⟩ := combinationalCallsArePureAndTouchNothing i hkind
    obtain rfl := Host.Outcome.next.inj ((hi s).symm.trans h)
    rfl
  | some k =>
    obtain ⟨m, c, c', -, ⟨-, hfind⟩, hc, hc', hfind', hother, -⟩ :=
      aSequentialCallWritesOnlyItsOwnComponent i k s t hkind h
    by_cases hn : n = m
    · subst hn
      simp [kindOfName, hfind, hfind', hc, hc']
    · simp [kindOfName, hother n hn]

/-- Settles O56: such a step makes one call, and a call keeps the kinds. -/
theorem onlyTheDriverChangesWhichComponentsExist : Obligations.OnlyTheDriverChangesWhichComponentsExist := by
  intro s t e rest hq h hconstruct hdiscard hnew n
  obtain ⟨i, q, b, hi⟩ := step_makes_one_call hq h hconstruct hdiscard hnew
  exact exec_keeps_kinds hi n

theorem exec_returns_one {i : Instr} {s t : State} (h : exec i s = .next t) : ∃ o, t.outs = s.outs ++ [o] := by
  rcases exec_answers_or_ticks i with ⟨o, hi⟩ | ⟨f, hi⟩
  · obtain rfl := Host.Outcome.next.inj ((hi s).symm.trans h)
    exact ⟨o, rfl⟩
  · obtain ⟨-, -, o, -, -, -, -, rfl⟩ := tick_next ((hi s).symm.trans h)
    exact ⟨o, rfl⟩

/-- Settles O57: a step that constructs or discards writes the table of components only, and any other makes one call. -/
theorem everyCallReturnsExactlyOneResult : Obligations.EveryCallReturnsExactlyOneResult := by
  intro s t e rest hq h
  constructor
  · intro hdriver
    obtain ⟨e', rest', hq', hcase⟩ := step_next h
    obtain ⟨rfl, rfl⟩ := List.cons.inj (hq.symm.trans hq')
    rcases hcase with ⟨n, d, -, rfl⟩ | ⟨n, -, rfl⟩ | ⟨hconstruct, hdiscard, hnew, -⟩
    · rfl
    · rfl
    · rcases hdriver with ⟨n, c, hc⟩ | ⟨n, hn⟩ | ⟨k, n, v, hv⟩
      · exact absurd hc (hconstruct n c)
      · exact absurd hn (hdiscard n)
      · exact absurd hv (hnew k n v)
  · intro hconstruct hdiscard hnew
    obtain ⟨i, q, b, hi⟩ := step_makes_one_call hq h hconstruct hdiscard hnew
    obtain ⟨o, ho⟩ := exec_returns_one hi
    exact ⟨o, ho⟩

theorem step_discard {s : State} {n : Nat} {rest : List Stimulus} (h : s.queue = .discard n :: rest) :
    step s = .next { s with queue := rest, components := Memory.erase s.components n } :=
  step_of_queue h

/-- Settles O58: the step erases the one name from the table. -/
theorem discardingRemovesOnlyTheNamedComponent : Obligations.DiscardingRemovesOnlyTheNamedComponent :=
  fun s n _ hq => ⟨_, step_discard hq, rfl, rfl, rfl, find_erase_same s.components n,
    fun _ hm => find_erase_other s.components hm⟩

end Sys2Proof.Machine
end

section
/-!
PROOFS. The family 70_reset_and_hazards.md: the first call on a fresh component (O42), the calls that bring a component back
to its initial content (O43, O44), and forwarding a result (O45).
-/

namespace Sys2Proof.Machine

/-- The step on a record sent to a component, by what the record's call does there. -/
theorem TicksTo.step_record {s : State} {n : Nat} {i : Instr} {rest : List Stimulus} {o : Output} {c : Instance}
    (h : TicksTo i { s with queue := rest, bound := some n } n o c) (hq : s.queue = recordTo n i :: rest) :
    ∃ t, step s = .next t ∧ t.outs = s.outs ++ [o] ∧ t.queue = rest ∧ Memory.find t.components n = some c ∧
      ∀ m, m ≠ n → Memory.find t.components m = Memory.find s.components m := by
  obtain ⟨t, hexec, houts, hqueue, -, hfind, hother⟩ := h
  exact ⟨t, (step_recordTo hq).trans hexec, houts, hqueue, hfind, hother⟩

/-! ## Writing every address of an array -/

section Arrays
variable {n : Nat} {α : Type} {call : Word → Bit → Vec n → Instr} {ram : α → Instance} {words : α → List Word}

/-- A call on an array that holds one word at every address returns that word. -/
theorem IsArrayOfWords.returns_of_replicate (h : IsArrayOfWords call ram words) {s : State} {k size : Nat} {m : α}
    {v : Word} (hs : BoundTo s k (ram m)) (hm : words m = List.replicate size v) (input : Word) (load : Bit)
    (a : Vec n) : ∃ m', TicksTo (call input load a) s k (.word v) (ram m') := by
  obtain ⟨w, m', hw, hticks, -⟩ := h s k m input load a hs
  rw [hm] at hw
  obtain rfl : w = v := List.eq_of_mem_replicate (List.mem_of_getElem? hw)
  exact ⟨m', hticks⟩

/-- Writing `v` at the address after the words `done` returns the word there and puts `v` in its place. -/
theorem IsArrayOfWords.write_after (h : IsArrayOfWords call ram words) {s : State} {k : Nat} {m : α}
    {done old : List Word} {w : Word} (hs : BoundTo s k (ram m)) (hm : words m = done ++ w :: old)
    (hlt : done.length < 2 ^ n) (v : Word) :
    ∃ m', TicksTo (call v true (BitVec.ofNat n done.length)) s k (.word w) (ram m') ∧
      words m' = done ++ v :: old := by
  obtain ⟨w', m', hw, hticks, hwords⟩ := h s k m v true (BitVec.ofNat n done.length) hs
  have haddr : (BitVec.ofNat n done.length).toNat = done.length := by
    rw [BitVec.toNat_ofNat, Nat.mod_eq_of_lt hlt]
  rw [haddr, hm] at hw hwords
  obtain rfl : w = w' := by simpa using hw
  exact ⟨m', hticks, by simpa using hwords⟩

/-- A run that writes `v` at each address from `done.length` on, by induction on the words `old` still to be replaced: each
call returns the first of them and adds one `v` to the words done. -/
theorem IsArrayOfWords.run_writes (h : IsArrayOfWords call ram words) (v : Word) {k : Nat} {rest : List Stimulus}
    (old : List Word) : ∀ (done : List Word) (s : State) (m : α), Memory.find s.components k = some (ram m) →
      words m = done ++ old → done.length + old.length ≤ 2 ^ n →
      s.queue = (List.range' done.length old.length).map
        (fun j => recordTo k (call v true (BitVec.ofNat n j))) ++ rest →
      ∃ t m', core.run old.length s = .next t ∧ t.queue = rest ∧ Memory.find t.components k = some (ram m') ∧
        words m' = done ++ List.replicate old.length v ∧ t.outs = s.outs ++ old.map Output.word := by
  induction old with
  | nil =>
    intro done s m hfind hm _ hq
    exact ⟨s, m, rfl, hq, hfind, hm, by simp⟩
  | cons w old ih =>
    intro done s m hfind hm hle hq
    rw [List.length_cons] at hle hq
    rw [List.range'_succ, List.map_cons, List.cons_append] at hq
    obtain ⟨m₁, hticks, hm₁⟩ := h.write_after (s := { s with queue := _, bound := some k }) ⟨rfl, hfind⟩ hm
      (by omega) v
    obtain ⟨t₁, hstep, houts₁, hqueue₁, hfind₁, -⟩ := hticks.step_record hq
    have hlen : (done ++ [v]).length = done.length + 1 := by simp
    obtain ⟨t, m', hrun, hqueue, hfind', hm', houts⟩ :=
      ih (done ++ [v]) t₁ m₁ hfind₁ (by simp [hm₁]) (by omega) (by rw [hlen, hqueue₁])
    refine ⟨t, m', (run_succ_of_step old.length hstep).trans hrun, hqueue, hfind', ?_, ?_⟩
    · simp [hm', List.replicate_succ]
    · simp [houts, houts₁]

/-- The run that writes `v` at every address leaves `v` everywhere and returns the words as they were. -/
theorem IsArrayOfWords.run_writes_all (h : IsArrayOfWords call ram words) (v : Word) {s : State} {k : Nat} {m : α}
    {rest : List Stimulus} (hfind : Memory.find s.components k = some (ram m)) (hlen : (words m).length = 2 ^ n)
    (hq : s.queue = (List.range (2 ^ n)).map (fun j => recordTo k (call v true (BitVec.ofNat n j))) ++ rest) :
    ∃ t m', core.run (2 ^ n) s = .next t ∧ t.queue = rest ∧ Memory.find t.components k = some (ram m') ∧
      words m' = List.replicate (2 ^ n) v ∧ t.outs = s.outs ++ (words m).map Output.word := by
  rw [List.range_eq_range'] at hq
  rw [← hlen] at hq ⊢
  exact h.run_writes v (words m) [] s m hfind rfl (by simp [hlen]) hq

end Arrays

/-- Settles O44: both RAMs are arrays of words, and the run writes zero at every address. -/
theorem writingEveryAddressRestoresARam : Obligations.WritingEveryAddressRestoresARam :=
  ⟨fun _ _ m _ hfind hq => ram8_isArrayOfWords.run_writes_all 0#16 hfind (ram8Words_listsWords m).1 hq,
    fun _ _ m _ hfind hq => ram64_isArrayOfWords.run_writes_all 0#16 hfind (ram64Words_listsWords m).1 hq⟩

/-! ## The first call on a fresh component -/

/-- What a call on a component just constructed returns (R119). -/
def Construction.initialContent : Construction → Output
  | .dff init => .bit init
  | .bit => .bit false
  | .register | .ram8 | .ram64 | .pc => .word 0#16

/-- A call of its kind on a fresh component returns the initial content, whatever the operands. -/
theorem ticksTo_of_fresh {s : State} {n : Nat} {c : Construction} {i : Instr} (hkind : kindOfOp i.op = some c.fresh.kind)
    (hs : BoundTo s n c.fresh) : ∃ c', TicksTo i s n c.initialContent c' := by
  cases i with
  | nand | not | and | or | nor | xor | and16 | mux | mux16 | mux8way16 | dmux | dmux8way | inc16 => cases hkind
  | dff input =>
    cases c <;> cases hkind
    exact ⟨_, dff_ticksTo hs input⟩
  | bit input load =>
    cases c <;> cases hkind
    exact ⟨_, bit_ticksTo hs input load⟩
  | register input load =>
    cases c <;> cases hkind
    exact ⟨_, register_ticksTo hs input load⟩
  | ram8 input load a =>
    cases c <;> cases hkind
    obtain ⟨m, hticks⟩ := ram8_isArrayOfWords.returns_of_replicate hs (ram8Words_fill _) input load a
    exact ⟨.ram8 m, hticks⟩
  | ram64 input load a =>
    cases c <;> cases hkind
    obtain ⟨m, hticks⟩ := ram64_isArrayOfWords.returns_of_replicate hs (ram64Words_fill _) input load a
    exact ⟨.ram64 m, hticks⟩
  | pc input load reset inc =>
    cases c <;> cases hkind
    exact ⟨_, pc_ticksTo hs input load reset inc⟩

/-- Settles O42: the construct call puts the fresh component under the name, and the record's call finds it there. -/
theorem theFirstCallReturnsTheInitialContent : Obligations.TheFirstCallReturnsTheInitialContent := by
  intro s n c i rest hkind hq
  obtain ⟨t₁, hstep₁, hqueue₁, houts₁, hfind₁⟩ : ∃ t₁, step s = .next t₁ ∧ t₁.queue = recordTo n i :: rest ∧
      t₁.outs = s.outs ∧ Memory.find t₁.components n = some c.fresh :=
    ⟨_, step_construct hq, rfl, rfl, find_put_same s.components n c.fresh⟩
  obtain ⟨c', hticks⟩ := ticksTo_of_fresh (s := { t₁ with queue := rest, bound := some n }) hkind ⟨rfl, hfind₁⟩
  obtain ⟨t, hstep, houts, -⟩ := hticks.step_record hqueue₁
  have hrun : core.run 2 s = .next t := (run_succ_of_step 1 hstep₁).trans (run_succ_of_step 0 hstep)
  refine ⟨t, c.initialContent, hrun, houts₁ ▸ houts, ?_, ?_, ?_⟩
  · rintro init rfl
    rfl
  · rintro rfl
    rfl
  · rintro (rfl | rfl | rfl | rfl) <;> rfl

/-! ## One restoring call -/

/-- Settles O43: each is a call that stores the initial content. -/
theorem oneCallRestoresACellARegisterOrThePc : Obligations.OneCallRestoresACellARegisterOrThePc :=
  fun _ _ => ⟨fun _ init hs => dff_ticksTo hs init, fun _ hs => bit_ticksTo hs false true,
    fun _ hs => register_ticksTo hs 0#16 true, fun _ hs => pc_ticksTo hs 0#16 true true false⟩

/-! ## Forwarding -/

/-- Settles O45: the first call returns the old word of `a`, which is the latest result when the second line is read, and the
second call writes `b` alone. -/
theorem forwardingPassesTheContentBeforeTheCall : Obligations.ForwardingPassesTheContentBeforeTheCall := by
  intro s a b qa qb v rest hab ha hb hq
  obtain ⟨t₁, hstep₁, houts₁, hqueue₁, ha₁, hother₁⟩ :=
    (register_ticksTo (s := { s with queue := _, bound := some a }) ⟨rfl, ha⟩ v true).step_record hq
  have hb₁ : Memory.find t₁.components b = some (.register qb) := (hother₁ b hab.symm).trans hb
  obtain ⟨t₂, hload, houts₂, hqueue₂, -, hb₂, hother₂⟩ :=
    register_ticksTo (s := { t₁ with queue := rest, bound := some b }) ⟨rfl, hb₁⟩ qa true
  have hval : Value.toWord t₁.lastOut .returned = .ok qa := toWord_returned (lastOut_of_outs houts₁)
  have hstep₂ : step t₁ = .next t₂ :=
    (step_execLine hqueue₁ hb₁ (assemble_register (.refl _) hval rfl)).trans hload
  have hrun : core.run 2 s = .next t₂ := (run_succ_of_step 1 hstep₁).trans (run_succ_of_step 0 hstep₂)
  exact ⟨t₂, hrun, hqueue₂, by simp [houts₂, houts₁], (hother₂ a hab).trans ha₁, hb₂⟩

end Sys2Proof.Machine
end

section
/-!
PROOFS. The family of the remaining statements: strings with no whole operation field (O5).
-/

namespace Sys2Proof

theorem decodeFront_of_length_lt_five {bits : List Bit} (h : bits.length < 5) :
    decodeFront bits = .error .badLength :=
  if_pos h

/-- Settles O5: the reader refuses such a string before it looks for an operation, and `decode` passes its refusal on. -/
theorem aRecordWithNoOperationFieldIsABadLength : Obligations.ARecordWithNoOperationFieldIsABadLength := by
  intro r h
  rw [decode, decodeFront_of_length_lt_five h]

end Sys2Proof
end
